-- ==== Sys2Proof/Word.lean ====
section
/-! DEFINITION. The words the block computes with (00_scope.md R13, 10_state.md R34, R36). -/

namespace Sys2Proof

/-- A field element, a scalar, a byte of buffer memory, a return code (00 R11, R13). -/
abbrev Byte := BitVec 8

/-- An entry of the logarithm table (00 R13, 10 R36). -/
abbrev Half := BitVec 16

/-- A host register, a command word, a buffer address (00 R13). -/
abbrev Word := BitVec 32

/-- The field polynomial `POLY`, 9 bits (10 R34). -/
abbrev Poly := BitVec 9

end Sys2Proof
end

