-- ==== Sys2Proof/Syntax.lean ====
section
/-! DEFINITION. The thirteen commands of the opcode table (30_encoding.md R78), one constructor per row. -/

namespace Sys2Proof

/-- A command with its immediates (30 R77, R78). The buffer addresses, the length and the version are not part of it:
a command reads them from the operand registers when it executes (30 R71). -/
inductive Instr where
  /-- `INIT` (40 R100). -/
  | init
  /-- `ADD` (42 R174). -/
  | add
  /-- `ADD2` (42 R176). -/
  | add2
  /-- `ADDSET` (42 R178). -/
  | addset
  /-- `MULADD`, scalar `s` in field `X` (42 R180). -/
  | muladd (s : Byte)
  /-- `MUL`, scalar `s` in field `X` (42 R182). -/
  | mul (s : Byte)
  /-- `SWAP` (42 R184). -/
  | swap
  /-- `GFADD`, `x` in field `X`, `y` in field `Y` (41 R141). -/
  | gfadd (x y : Byte)
  /-- `GFMUL` (41 R142). -/
  | gfmul (x y : Byte)
  /-- `GFDIV`, dividend `x`, divisor `y` (41 R143). -/
  | gfdiv (x y : Byte)
  /-- `GFINV` (41 R144). -/
  | gfinv (x : Byte)
  /-- `EXPRD`, the 10-bit table index of format T (30 R76, 41 R145). -/
  | exprd (idx : BitVec 10)
  /-- `LOGRD` (41 R146). -/
  | logrd (x : Byte)
  deriving DecidableEq, Repr

end Sys2Proof
end

