-- ==== Sys2Proof/WellFormed.lean ====
section
/-! DEFINITION. Which commands have an encoding: the one check beyond the fields' widths is format T's `IDX < 1020` (30_encoding.md R76). -/

namespace Sys2Proof

/-- The command is one that some command word stands for (30 R76, R84). -/
def Instr.wf : Instr → Bool
  | .init => true
  | .add => true
  | .add2 => true
  | .addset => true
  | .muladd _ => true
  | .mul _ => true
  | .swap => true
  | .gfadd _ _ => true
  | .gfmul _ _ => true
  | .gfdiv _ _ => true
  | .gfinv _ => true
  | .exprd idx => decide (idx.toNat < 1020)
  | .logrd _ => true

end Sys2Proof
end

