-- ==== Sys2Proof/Decode.lean ====
section
/-! DEFINITION. The command word (30_encoding.md): its fields, its formats, the decoder (R79), total on every 32-bit word and
rejecting by name, and the encoder. -/

namespace Sys2Proof

/-- Why a word is illegal (30 R80). -/
inductive DecodeError where
  /-- `OP` is 0x00 or 0x0E..0x1F. -/
  | reservedOpcode
  /-- A reserved bit of the word's format is set. -/
  | reservedBits
  /-- `EXPRD` with `IDX >= 1020`. -/
  | expIndex
  deriving DecidableEq, Repr

/-- The four formats (30 R73 to R76). -/
inductive Format where
  | n
  | s
  | p
  | t
  deriving DecidableEq, Repr

/-- The operation codes in use (30 R78), by mnemonic. -/
inductive Opcode where
  | init
  | add
  | add2
  | addset
  | muladd
  | mul
  | swap
  | gfadd
  | gfmul
  | gfdiv
  | gfinv
  | exprd
  | logrd
  deriving DecidableEq, Repr

/-- Field `OP`, bits 4:0 (30 R72). -/
def fieldOp (w : Word) : BitVec 5 := w.extractLsb' 0 5

/-- Field `X`, bits 15:8 (30 R72). -/
def fieldX (w : Word) : Byte := w.extractLsb' 8 8

/-- Field `Y`, bits 23:16 (30 R72). -/
def fieldY (w : Word) : Byte := w.extractLsb' 16 8

/-- Field `IDX`, bits 17:8 (30 R76). -/
def fieldIdx (w : Word) : BitVec 10 := w.extractLsb' 8 10

/-- The operation codes of 30 R78; every other value of `OP` is reserved. -/
def opcodeOf (op : BitVec 5) : Option Opcode :=
  match op.toNat with
  | 0x01 => some .init
  | 0x02 => some .add
  | 0x03 => some .add2
  | 0x04 => some .addset
  | 0x05 => some .muladd
  | 0x06 => some .mul
  | 0x07 => some .swap
  | 0x08 => some .gfadd
  | 0x09 => some .gfmul
  | 0x0A => some .gfdiv
  | 0x0B => some .gfinv
  | 0x0C => some .exprd
  | 0x0D => some .logrd
  | _ => none

/-- The format of each command (30 R78). -/
def formatOf : Opcode → Format
  | .init => .n
  | .add => .n
  | .add2 => .n
  | .addset => .n
  | .muladd => .s
  | .mul => .s
  | .swap => .n
  | .gfadd => .p
  | .gfmul => .p
  | .gfdiv => .p
  | .gfinv => .s
  | .exprd => .t
  | .logrd => .s

/-- The masks of 30 R79. -/
def formatMask : Format → Word
  | .n => 0xFFFFFFFF
  | .s => 0xFFFF00FF
  | .p => 0xFF0000FF
  | .t => 0xFFFC00FF

/-- The command named by an operation code, with its immediates pulled out of the word (30 R77, R78). -/
def assemble (op : Opcode) (w : Word) : Instr :=
  match op with
  | .init => .init
  | .add => .add
  | .add2 => .add2
  | .addset => .addset
  | .muladd => .muladd (fieldX w)
  | .mul => .mul (fieldX w)
  | .swap => .swap
  | .gfadd => .gfadd (fieldX w) (fieldY w)
  | .gfmul => .gfmul (fieldX w) (fieldY w)
  | .gfdiv => .gfdiv (fieldX w) (fieldY w)
  | .gfinv => .gfinv (fieldX w)
  | .exprd => .exprd (fieldIdx w)
  | .logrd => .logrd (fieldX w)

/-- Decoding (30 R79): the operation code, then the reserved bits of its format, then format T's extra condition. -/
def decode (w : Word) : Except DecodeError Instr :=
  match opcodeOf (fieldOp w) with
  | none => .error .reservedOpcode
  | some op =>
    if w &&& formatMask (formatOf op) ≠ (fieldOp w).zeroExtend 32 then .error .reservedBits
    else if formatOf op = .t ∧ 1020 ≤ (fieldIdx w).toNat then .error .expIndex
    else .ok (assemble op w)

/-- Format N: `OP` in bits 4:0 (30 R73). -/
def encodeN (op : BitVec 5) : Word := op.zeroExtend 32

/-- Format S: `OP` in bits 4:0 and `X` in bits 15:8, `(x << 8) | op` (30 R74, R84). -/
def encodeS (op : BitVec 5) (x : Byte) : Word := x.zeroExtend 32 <<< 8 ||| op.zeroExtend 32

/-- Format P: `OP` in bits 4:0, `X` in bits 15:8, `Y` in bits 23:16, `(y << 16) | (x << 8) | op` (30 R75, R84). -/
def encodeP (op : BitVec 5) (x y : Byte) : Word :=
  y.zeroExtend 32 <<< 16 ||| x.zeroExtend 32 <<< 8 ||| op.zeroExtend 32

/-- Format T: `OP` in bits 4:0 and `IDX` in bits 17:8, `(i << 8) | op` (30 R76, R84). -/
def encodeT (op : BitVec 5) (i : BitVec 10) : Word := i.zeroExtend 32 <<< 8 ||| op.zeroExtend 32

/-- The command word of a command (30 R73 to R78, R84). -/
def encode : Instr → Word
  | .init => encodeN 0x01
  | .add => encodeN 0x02
  | .add2 => encodeN 0x03
  | .addset => encodeN 0x04
  | .muladd s => encodeS 0x05 s
  | .mul s => encodeS 0x06 s
  | .swap => encodeN 0x07
  | .gfadd x y => encodeP 0x08 x y
  | .gfmul x y => encodeP 0x09 x y
  | .gfdiv x y => encodeP 0x0A x y
  | .gfinv x => encodeS 0x0B x
  | .exprd i => encodeT 0x0C i
  | .logrd x => encodeS 0x0D x

/-- The mask of a command's row in the opcode table (30 R79). -/
def rowMask : Instr → Word
  | .init => 0xFFFFFFFF
  | .add => 0xFFFFFFFF
  | .add2 => 0xFFFFFFFF
  | .addset => 0xFFFFFFFF
  | .muladd _ => 0xFFFF00FF
  | .mul _ => 0xFFFF00FF
  | .swap => 0xFFFFFFFF
  | .gfadd _ _ => 0xFF0000FF
  | .gfmul _ _ => 0xFF0000FF
  | .gfdiv _ _ => 0xFF0000FF
  | .gfinv _ => 0xFFFF00FF
  | .exprd _ => 0xFFFC00FF
  | .logrd _ => 0xFFFF00FF

/-- The match value of a command's row in the opcode table, its operation code (30 R78). -/
def rowMatch : Instr → Word
  | .init => 0x00000001
  | .add => 0x00000002
  | .add2 => 0x00000003
  | .addset => 0x00000004
  | .muladd _ => 0x00000005
  | .mul _ => 0x00000006
  | .swap => 0x00000007
  | .gfadd _ _ => 0x00000008
  | .gfmul _ _ => 0x00000009
  | .gfdiv _ _ => 0x0000000A
  | .gfinv _ => 0x0000000B
  | .exprd _ => 0x0000000C
  | .logrd _ => 0x0000000D

/-- What the decoder reads from the low `nbits` bits of `w`, as one 32-bit command word whose other bits are 0. Every command is
32 bits long (30 R70), so a number of bits above 32 is no command. -/
def decodeTableWord (nbits w : Nat) : Option Instr :=
  if 32 < nbits then none
  else
    match decode (BitVec.ofNat 32 (w % 2 ^ nbits)) with
    | .ok i => some i
    | .error _ => none

end Sys2Proof
end

