-- ==== Sys2Proof/Config.lean ====
section
/-! DEFINITION. What an implementation fixes: the parameters P1 to P6 (00_scope.md R10) as plain data, the values this
spec gives them, and the values it leaves open, as constants without a body. -/

namespace Sys2Proof

/-- Parameter P5, `LOG_OF_ONE`: one of 0 and 255 (00 R10, 90 C1). -/
inductive LogOfOne where
  | zero
  | twoFiftyFive
  deriving DecidableEq, Repr

/-- A run of addresses that exist: `base`, `base + 1`, …, `base + size - 1`. -/
structure Region where
  base : Nat
  size : Nat
  deriving DecidableEq, Repr

/-- The implementation parameters (00 R10). A state holds them, and no step writes them (log 1: DESIGN CHOICE, safe).
P6 is a predicate on 32-bit addresses; a list of regions can hold every such predicate. -/
structure Params where
  /-- P1 `POLY_CATALOG`. -/
  polyCatalog : Vector Byte 16
  /-- P2 `DEFAULT_POLY_INDEX`, any integer. -/
  defaultPolyIndex : Int
  /-- P3 `ENGINE_VERSION`. -/
  engineVersion : Word
  /-- P4 `HOST_LITTLE_ENDIAN`. -/
  hostLittleEndian : Bool
  /-- P5 `LOG_OF_ONE`. -/
  logOfOne : LogOfOne
  /-- P6 `MemAdmit`: the addresses that exist. -/
  memMap : List Region
  deriving DecidableEq, Repr

/-- P3 is OPEN (00 R10, 92 D22): nothing is known of its value (log 2). -/
opaque Config.engineVersion : Word

/-- P6 is OPEN (00 R10, 92 D8): nothing is known of its value (log 2). -/
opaque Config.memMap : List Region

/-- The draw for `STATUS.RC` at the `k`-th reset of a run (10 R24, 93 Z1): a free value (log 3). -/
opaque Config.resetRc : Nat → Byte

/-- The draw for `RESULT` at the `k`-th reset of a run (10 R28, 93 Z2): a free value (log 3). -/
opaque Config.resetResult : Nat → Word

/-- The default catalog of 00 R10: the 16 primitive polynomials of degree 8, ascending (93 G1; log 17: PRESUMED, by the spec itself). -/
def Params.defaultCatalog : Vector Byte 16 :=
  #v[0x8E, 0x95, 0x96, 0xA6, 0xAF, 0xB1, 0xB2, 0xB4, 0xB8, 0xC3, 0xC6, 0xD4, 0xE1, 0xE7, 0xF3, 0xFA]

/-- Every parameter at the value 00 R10 gives it, or at its open constant. -/
def Params.given : Params where
  polyCatalog := Params.defaultCatalog
  defaultPolyIndex := 3
  engineVersion := Config.engineVersion
  hostLittleEndian := true
  logOfOne := .zero
  memMap := Config.memMap

end Sys2Proof
end

