-- ==== Sys2Proof/Machine/State.lean ====
section
/-! DEFINITION. The machine's state as plain data (10_state.md), the hosts' accesses (30_encoding.md R83), the fault kinds
(60_exceptions.md R214), and the state after reset (70_reset_and_hazards.md R240). -/

namespace Sys2Proof.Machine

/-- The five operand registers (10 R22, R25 to R27). -/
inductive OperandReg where
  | dst
  | a
  | b
  | len
  | arg
  deriving DecidableEq, Repr

/-- One value for each operand register. -/
structure PerReg (α : Type) where
  dst : α
  a   : α
  b   : α
  len : α
  arg : α
  deriving DecidableEq, Repr

/-- The width of a host's register access, any number of bits: an access of every width but 32 bits is refused, and the fault records
its width (10 R31, 60 R214, 92 D3). -/
structure AccessWidth where
  bits : Nat
  deriving DecidableEq, Repr

/-- A byte access (10 R31). -/
abbrev AccessWidth.byte : AccessWidth := ⟨8⟩

/-- A half-word access (10 R31). -/
abbrev AccessWidth.half : AccessWidth := ⟨16⟩

/-- A word access, the one width the window accepts (10 R31). -/
abbrev AccessWidth.word : AccessWidth := ⟨32⟩

/-- What a host can do to the block (30 R83, 70 R240). -/
inductive HostAction where
  /-- `WR`, and `CMD` which is a `WR` to offset 0 (30 R83). `value` is what a word access writes; an access of another width faults
  whatever it would write (log 21: DEDUCED, safe). -/
  | write (offset : Nat) (width : AccessWidth) (value : Word)
  /-- `RD` (30 R83). -/
  | read (offset : Nat) (width : AccessWidth)
  /-- `MEM`: a host's own write of consecutive bytes of buffer memory (30 R83). -/
  | mem (addr : Word) (bytes : List Byte)
  /-- The block's reset (70 R240; log 16: DESIGN CHOICE, safe). -/
  | reset
  deriving DecidableEq, Repr

/-- What raised a fault: a command word, or a register access at an offset (60 R214). -/
inductive RaisedBy where
  | command (word : Word)
  | access (offset : Nat)
  deriving DecidableEq, Repr

/-- The fault kinds of 60 R214 with what each records. A fault is the spec's model state for a use it calls undefined
behaviour (60 R213); the run has no further step (60 R215). All are safe: the model stops where the hardware's result is
unspecified. -/
inductive Fault where
  /-- "A command, or a host read, reads a register whose `WRITTEN` bit is 0" (60 R214). The spec orders this stop: 10 R32 "raises
  `Fault(UNWRITTEN_OPERAND)`, and the command has no other effect", and 93 Z3, for a register's value before it is written, "No value
  exists". Raised by every command that reads an operand register, and by `RD`. Safe. -/
  | unwrittenOperand (source : RaisedBy) (reg : OperandReg)
  /-- A buffer command with `INIT_DONE` = 0 (42 R172). Safe. -/
  | preInit (command : Word)
  /-- A buffer command with a negative `LEN` (42 R171). Safe. -/
  | negativeLength (command : Word) (len : Word)
  /-- A buffer range that wraps or is not admitted; the first offending operand (20 R54). Raised by the buffer commands. Safe. -/
  | range (command : Word) (operand : OperandReg)
  /-- A forbidden overlap, the spec's `ALIAS` (42 R175 to R185). Raised by the buffer commands. Safe. -/
  | aliasing (command : Word)
  /-- A register access that is not an aligned 32-bit word inside the window, with its offset and its width (10 R31, 60 R214). Raised by
  `WR` and `RD`. Safe. -/
  | badRegisterAccess (offset : Nat) (width : AccessWidth)
  deriving DecidableEq, Repr

/-- What the model has no meaning for. -/
inductive Refusal where
  /-- Raised by the dispatcher for a command that has no meaning yet. Safe. -/
  | notModelled (mnemonic : String)
  /-- Raised by `INIT` on its build path when the catalog P1 breaks 00 R12: "a model must refuse" it (log 9). Safe. -/
  | invalidCatalog
  /-- Raised by a host's `MEM` to a range that does not exist (20 R54; log 8: DESIGN CHOICE). Safe. -/
  | hostMemoryRange (addr : Word) (count : Nat)
  deriving DecidableEq, Repr

/-- The field context (00 R19): `INIT_DONE`, `POLY` and the five tables (10 R33 to R39). `MUL` and `DIV` are kept as the
"256 contiguous sub-tables of 256 entries each" of 10 R37 and R38: entry `y*256 + x` is entry `x` of sub-table `y`
(00 R15; log 12: DESIGN CHOICE, safe). -/
structure FieldContext where
  initDone : Bool
  poly : Poly
  exp : Vector Byte 1020
  log : Vector Half 256
  mul : Vector (Vector Byte 256) 256
  div : Vector (Vector Byte 256) 256
  inv : Vector Byte 256
  deriving DecidableEq, Repr

/-- The field context after reset: `INIT_DONE` = 0, `POLY` = 0, every table entry 0 (10 R33 to R39, 70 R240, R241). -/
def FieldContext.unpopulated : FieldContext where
  initDone := false
  poly := 0
  exp := Vector.replicate 1020 0
  log := Vector.replicate 256 0
  mul := Vector.replicate 256 (Vector.replicate 256 0)
  div := Vector.replicate 256 (Vector.replicate 256 0)
  inv := Vector.replicate 256 0

/-- Buffer memory: (address, byte) pairs in the canonical form of `Memory.wf` (20 R50). An address that is not listed reads 0
(log 5: DESIGN CHOICE, unsafe). -/
abbrev Memory := List Host.Cell

/-- The machine's state. -/
structure State where
  /-- P1 to P6 (00 R10); no step writes them (log 1). -/
  params : Params
  /-- `STATUS.RC` (10 R24). -/
  rc : Byte
  /-- `DST`, `A`, `B`, `LEN`, `ARG` (10 R25 to R27). -/
  regs : PerReg Word
  /-- `WRITTEN`: which operand registers a host has written since reset (10 R32). -/
  written : PerReg Bool
  /-- `RESULT` (10 R28). -/
  result : Word
  /-- `INIT_DONE`, `POLY` and the tables (10 R33 to R39). -/
  ctx : FieldContext
  /-- Buffer memory, the host's own (20 R50). -/
  mem : Memory
  /-- The model's own: the hosts' accesses that have not reached the block yet, oldest first (log 6). -/
  pending : List HostAction
  /-- The model's own: the values the hosts' `RD` statements have observed, oldest first (30 R83; log 7). -/
  observed : List Word
  /-- The model's own: the resets taken after the first, which tells the draws of one reset from another's (log 16). -/
  resets : Nat
  deriving DecidableEq, Repr

/-- The machine right after reset (70 R240): idle, with no access pending (70 R242). `RC` and `RESULT` are draws (log 3: DESIGN
CHOICE, safe); the operand registers hold 0, which their `WRITTEN` bits keep unread (log 4: DESIGN CHOICE, unsafe). -/
def State.reset : State where
  params := Params.given
  rc := Config.resetRc 0
  regs := { dst := 0, a := 0, b := 0, len := 0, arg := 0 }
  written := { dst := false, a := false, b := false, len := false, arg := false }
  result := Config.resetResult 0
  ctx := FieldContext.unpopulated
  mem := []
  pending := []
  observed := []
  resets := 0

end Sys2Proof.Machine
end

