-- ==== Sys2Proof/Machine/Ops.lean ====
section
/-! DEFINITION. The named operations over memory, registers and the other fields of State; every meaning goes through them.
The block takes no exception and returns from none (60_exceptions.md R212, R218, R219), so no such operation is here. -/

namespace Sys2Proof.Machine

/-- The outcome of a step of this machine. -/
abbrev Result := Host.Outcome State Fault Refusal

/-! ### The operand registers -/

/-- The value kept for register `r`. -/
def PerReg.get {α : Type} (p : PerReg α) : OperandReg → α
  | .dst => p.dst
  | .a => p.a
  | .b => p.b
  | .len => p.len
  | .arg => p.arg

/-- `v` kept for register `r`, the others as before. -/
def PerReg.set {α : Type} (p : PerReg α) (r : OperandReg) (v : α) : PerReg α :=
  match r with
  | .dst => { p with dst := v }
  | .a => { p with a := v }
  | .b => { p with b := v }
  | .len => { p with len := v }
  | .arg => { p with arg := v }

/-! ### Buffer memory (20 R50): a sorted list of the bytes that are not 0 -/

/-- `MemRead(addr, 1)` (00 R17, 20 R50): the byte listed for `addr`, or 0 (log 5). It has no side effect (20 R58). -/
def Memory.read : Memory → Nat → Byte
  | [], _ => 0
  | (b, v) :: m, addr => if b = addr then v else Memory.read m addr

/-- The byte `v` listed at `addr` in front of `m`, unless it is the 0 that an unlisted address reads. -/
def Memory.list (addr : Nat) (v : Byte) (m : Memory) : Memory := if v = 0 then m else (addr, v) :: m

/-- `MemWrite(addr, 1, v)` (00 R17, 20 R50), keeping the list sorted and free of 0 bytes. -/
def Memory.write : Memory → Nat → Byte → Memory
  | [], addr, v => Memory.list addr v []
  | (b, u) :: m, addr, v =>
    if addr < b then Memory.list addr v ((b, u) :: m)
    else if addr = b then Memory.list addr v m
    else (b, u) :: Memory.write m addr v

/-- From address `lo` on: addresses strictly rising and below 2^32 (20 R50), no listed byte 0. -/
def Memory.wfFrom : Nat → Memory → Bool
  | _, [] => true
  | lo, (b, u) :: m => decide (lo ≤ b) && decide (b < 2 ^ 32) && decide (u ≠ 0) && Memory.wfFrom (b + 1) m

/-- The canonical form of buffer memory. -/
def Memory.wf (m : Memory) : Bool := Memory.wfFrom 0 m

/-- The loop `for i in 0..n-1` over memory, in ascending order (00 R18, 20 R60). -/
def forBytes : Nat → (Nat → Memory → Memory) → Memory → Memory
  | 0, _, m => m
  | n + 1, f, m => f n (forBytes n f m)

/-- The loop `for i in 0..n-1: W8(d+i, g(i))`, where `g` reads memory as it stands when index `i` is reached (42). -/
def storeBytes (d n : Nat) (g : Memory → Nat → Byte) (m : Memory) : Memory :=
  forBytes n (fun i m => m.write (d + i) (g m i)) m

/-- Consecutive bytes written from `addr` on, in ascending order: a host's `MEM` (30 R83). -/
def Memory.writeList (m : Memory) (addr : Nat) : List Byte → Memory
  | [] => m
  | v :: vs => Memory.writeList (m.write addr v) (addr + 1) vs

/-! ### Updates of State, one field each (but `writeReg`) -/

/-- `STATUS.RC <- c` (00 R16). -/
def State.setRc (s : State) (c : Byte) : State := { s with rc := c }

/-- `r[RESULT] <- v` (00 R16). -/
def State.setResult (s : State) (v : Word) : State := { s with result := v }

/-- The field context replaced, by the build path of `INIT` alone (10 R40). -/
def State.setCtx (s : State) (c : FieldContext) : State := { s with ctx := c }

/-- Buffer memory replaced. -/
def State.setMem (s : State) (m : Memory) : State := { s with mem := m }

/-- A host's write of an operand register: its value, and its `WRITTEN` bit (10 R25, R32). -/
def State.writeReg (s : State) (r : OperandReg) (v : Word) : State :=
  { s with regs := s.regs.set r v, written := s.written.set r true }

/-- The hosts' remaining accesses. -/
def State.setPending (s : State) (p : List HostAction) : State := { s with pending := p }

/-- A value a host's `RD` observes (30 R83). -/
def State.observe (s : State) (v : Word) : State := { s with observed := s.observed ++ [v] }

/-- The block's reset (70 R240): every piece of block state at its reset value, with fresh draws for `RC` and `RESULT` (93 Z1, Z2).
The parameters, buffer memory and what belongs to the hosts stay (70 R240; log 16). -/
def State.resetBlock (s : State) : State :=
  { s with
    rc := Config.resetRc (s.resets + 1)
    regs := State.reset.regs
    written := State.reset.written
    result := Config.resetResult (s.resets + 1)
    ctx := FieldContext.unpopulated
    resets := s.resets + 1 }

end Sys2Proof.Machine
end

