-- ==== Sys2Proof/Machine/Flags.lean ====
section
/-! DEFINITION. The block's status: the return codes (60_exceptions.md R210) and the `STATUS` word (10_state.md R24). There are no other
flags (10 R41). -/

namespace Sys2Proof.Machine

/-- The return codes (60 R210). -/
inductive ReturnCode where
  | ok
  | versionMismatch
  | unsupportedByteOrder
  | illegalCommand
  deriving DecidableEq, Repr

/-- The values of the return codes in `STATUS.RC` (60 R210). -/
def rcValue : ReturnCode → Byte
  | .ok => 0x00
  | .versionMismatch => 0x01
  | .unsupportedByteOrder => 0x02
  | .illegalCommand => 0x03

/-- A command completes with a return code: `STATUS.RC <- c` (10 R24). -/
def State.complete (s : State) (c : ReturnCode) : State := s.setRc (rcValue c)

/-- The `STATUS` word: `RC` in bits 15:8, `INIT_DONE` in bit 0, every other bit 0 (10 R24). -/
def State.statusWord (s : State) : Word :=
  s.rc.zeroExtend 32 <<< 8 ||| (if s.ctx.initDone then 1 else 0)

/-- The `POLYREG` word: `POLY` in bits 8:0, every other bit 0 (10 R29). -/
def State.polyWord (s : State) : Word := s.ctx.poly.zeroExtend 32

/-- What an illegal command word does, and all it does (30 R80). -/
def State.illegalCommand (s : State) : State := s.complete .illegalCommand

end Sys2Proof.Machine
end

