-- ==== Sys2Proof/Machine/Operands.lean ====
section
/-! DEFINITION. The operands of a command: the registers it reads (30_encoding.md R78), buffer ranges, admission, overlap and identity
(20_memory.md R54 to R57), and the checks every buffer command makes before it touches a buffer (42_buffer_ops.md R170). -/

namespace Sys2Proof.Machine

/-- The first register of `rs` that no host has written since reset (10 R32). Which one a fault names when several are unwritten is
the order of 30 R78 (log 11: DESIGN CHOICE, safe). -/
def State.firstUnwritten (s : State) (rs : List OperandReg) : Option OperandReg :=
  rs.find? fun r => !s.written.get r

/-- `MemAdmit(addr)`: some region of P6 holds the address (00 R10, 20 R54). -/
def memAdmit (p : Params) (addr : Nat) : Bool :=
  p.memMap.any fun g => decide (g.base ≤ addr) && decide (addr < g.base + g.size)

/-- The buffer `(p, n)` is in range (20 R54). -/
def inRange (q : Params) (p n : Nat) : Bool :=
  n == 0 || (decide (p + n ≤ 2 ^ 32) && (List.range n).all fun i => memAdmit q (p + i))

/-- The buffers `(p, n)` and `(q, n)` overlap (20 R57). -/
def overlaps (p q n : Nat) : Bool := decide (0 < n) && decide (p < q + n) && decide (q < p + n)

/-- The address in an operand register (30 R77). -/
def State.addr (s : State) (r : OperandReg) : Nat := (s.regs.get r).toNat

/-- The length `n`, the signed value of `LEN` (10 R26, 30 R77). -/
def State.length (s : State) : Int := s.regs.len.toInt

/-- The first register of `rs` whose buffer is not in range (60 R214: the order `DST`, `A`, `B`). -/
def State.firstOutOfRange (s : State) (rs : List OperandReg) (n : Nat) : Option OperandReg :=
  rs.find? fun r => !inRange s.params (s.addr r) n

/-- The aliasing rule "must not overlap, not even as identical buffers" (42 R175, R179, R181, R183, R185). -/
def State.disjoint (s : State) (p q : OperandReg) (n : Nat) : Bool := !overlaps (s.addr p) (s.addr q) n

/-- The aliasing rule "is identical to, or does not overlap" (42 R177). -/
def State.identicalOrDisjoint (s : State) (p q : OperandReg) (n : Nat) : Bool :=
  s.addr p == s.addr q || !overlaps (s.addr p) (s.addr q) n

/-- A buffer command: its checks in the order of 42 R170, then its work `body` on memory, then `STATUS.RC <- OK`.
`bufs` are the registers of its buffers in the order `DST`, `A`, `B`; it reads them and `LEN` (30 R78). `mayAlias n` is its aliasing
rule for length `n`. The first check, `UNWRITTEN_OPERAND`, is the spec's own (42 R170 item 1, 10 R32, 60 R216). A fault records the command's own word (60 R214; log 10: DEDUCED, safe). -/
def runBuffer (i : Instr) (bufs : List OperandReg) (mayAlias : State → Nat → Bool)
    (body : State → Nat → Memory → Memory) (s : State) : Result :=
  match s.firstUnwritten (bufs ++ [.len]) with
  | some r => .fault (.unwrittenOperand (.command (encode i)) r)
  | none =>
    if s.ctx.initDone = false then .fault (.preInit (encode i))
    else if s.length < 0 then .fault (.negativeLength (encode i) s.regs.len)
    else
      let n := s.length.toNat
      if n = 0 then .next (s.complete .ok)
      else
        match s.firstOutOfRange bufs n with
        | some r => .fault (.range (encode i) r)
        | none =>
          if mayAlias s n = false then .fault (.aliasing (encode i))
          else .next ((s.setMem (body s n s.mem)).complete .ok)

end Sys2Proof.Machine
end

