-- ==== Sys2Proof/Machine/Tables.lean ====
section
/-! DEFINITION. The Table Builder (40_table_builder.md R103 to R113), table look-up (00_scope.md R15), the constraint on the catalog
(00 R12), and the reference field arithmetic that the tables' contents are compared with (41_field_lookups.md R147 to R149).
Each table is given entry by entry, by what the rules' loops leave in that entry (log 19: DEDUCED, safe). -/

namespace Sys2Proof.Machine

/-- The vector whose entry `i` is `f i`. -/
def tabulate {α : Type} {n : Nat} (f : Fin n → α) : Vector α n :=
  ⟨(List.ofFn f).toArray, by simp⟩

/-- A byte as the index of a table of 256 entries. -/
def byteIndex (x : Byte) : Fin 256 := ⟨x.toNat, x.isLt⟩

/-! ### Table look-up -/

/-- `EXP[k]` (00 R15); every index the block uses is below 1020 (30 R79, 40 R111). -/
def expAt (t : Vector Byte 1020) (k : Nat) : Byte := if h : k < 1020 then t[k] else 0

/-- `LOG[x]` (00 R15). -/
def logAt (t : Vector Half 256) (x : Byte) : Half := t[byteIndex x]

/-- `MUL[y*256 + x]` or `DIV[y*256 + x]`: entry `x` of sub-table `y` (00 R15). -/
def pairAt (t : Vector (Vector Byte 256) 256) (y x : Byte) : Byte := t[byteIndex y][byteIndex x]

/-- `INV[x]` (00 R15). -/
def invAt (t : Vector Byte 256) (x : Byte) : Byte := t[byteIndex x]

/-! ### Reference field arithmetic -/

/-- `p <- p << 1; if p >= 256: p <- p XOR POLY` on a 9-bit value that is below 256 (41 R148, 40 R106). -/
def shiftReduce (poly p : Poly) : Poly :=
  if 256 ≤ (p <<< 1).toNat then p <<< 1 ^^^ poly else p <<< 1

/-- `gfmul` after its first `k` rounds: the pair of `r` and `p` (41 R148). -/
def gfmulRounds (poly : Poly) (a b : Byte) : Nat → Poly × Poly
  | 0 => (0, a.zeroExtend 9)
  | k + 1 =>
    let rp := gfmulRounds poly a b k
    (if b.getLsbD k then rp.1 ^^^ rp.2 else rp.1, shiftReduce poly rp.2)

/-- `gfmul(a, b)`, the reference field multiplication `a (*) b` (41 R148). No command uses it: the commands read the tables. -/
def gfmul (poly : Poly) (a b : Byte) : Byte := (gfmulRounds poly a b 8).1.truncate 8

/-- `ge(k)`, the powers of 2 in the field (41 R149). -/
def ge (poly : Poly) : Nat → Byte
  | 0 => 1
  | k + 1 => gfmul poly (ge poly k) 2

/-! ### Polynomial selection -/

/-- R103: the default index, or 0 where it lies outside the catalog. -/
def selectIndex (i : Int) : Fin 16 := if h : 0 ≤ i ∧ i < 16 then ⟨i.toNat, by omega⟩ else 0

/-- R104: the catalog entry shifted left by one bit, with the low bit forced to 1. -/
def catalogPoly (c : Byte) : Poly := c.zeroExtend 9 <<< 1 ||| 1

/-- R103 and R104 together: the value `INIT` gives `POLY`. -/
def polyOf (p : Params) : Poly := catalogPoly p.polyCatalog[selectIndex p.defaultPolyIndex]

/-! ### Exponential and logarithm tables -/

/-- One turn of R106's loop: the byte doubled, reduced when it overflows, bits 7:0 kept. -/
def double (poly : Poly) (v : Byte) : Byte := (shiftReduce poly (v.zeroExtend 9)).truncate 8

/-- `EXP[j]` as R105 and R106 produce it, `j` doublings of 1. -/
def expValue (poly : Poly) : Nat → Byte
  | 0 => 1
  | j + 1 => double poly (expValue poly j)

/-- Entry `i` of `EXP` after R105 to R109. -/
def expEntry (poly : Poly) (i : Nat) : Byte :=
  if i ≤ 254 then expValue poly i
  else if i = 255 then expValue poly 0
  else if i ≤ 509 then expValue poly (i % 255)
  else if i = 510 then 1
  else 0

/-- The value of P5 as an entry of `LOG` (00 R10). -/
def logOfOneValue : LogOfOne → Half
  | .zero => 0
  | .twoFiftyFive => 255

/-- Entry `x` of `LOG` after R105 to R107: 512 for 0, P5 for 1, and for another `x` the last `j` in 1..254 that R106 writes there. -/
def logEntry (poly : Poly) (one : LogOfOne) (x : Nat) : Half :=
  if x = 0 then 512
  else if x = 1 then logOfOneValue one
  else (List.range' 1 254).foldl (fun l j => if (expValue poly j).toNat = x then BitVec.ofNat 16 j else l) 0

/-! ### Multiply, divide and inverse tables -/

/-- Entry `x` of sub-table `y` of `MUL` (R111). -/
def mulEntry (e : Vector Byte 1020) (l : Vector Half 256) (y x : Fin 256) : Byte :=
  if y.val = 0 ∨ x.val = 0 then 0 else expAt e (l[x].toNat + l[y].toNat)

/-- Entry `x` of sub-table `y` of `DIV` (R111). -/
def divEntry (e : Vector Byte 1020) (l : Vector Half 256) (y x : Fin 256) : Byte :=
  if y.val = 0 ∨ x.val = 0 then 0 else expAt e (l[x].toNat + (255 - l[y].toNat))

/-- `BuildTables()` (R113): every table written, each from the ones before it; `INIT_DONE` is not its to set (R102). -/
def buildTables (p : Params) : FieldContext :=
  let poly := polyOf p
  let e : Vector Byte 1020 := tabulate fun i => expEntry poly i.val
  let l : Vector Half 256 := tabulate fun x => logEntry poly p.logOfOne x.val
  let m : Vector (Vector Byte 256) 256 := tabulate fun y => tabulate fun x => mulEntry e l y x
  let d : Vector (Vector Byte 256) 256 := tabulate fun y => tabulate fun x => divEntry e l y x
  { initDone := false
    poly := poly
    exp := e
    log := l
    mul := m
    div := d
    inv := tabulate fun x => d[x][(1 : Fin 256)] }

/-! ### The constraint on the catalog -/

/-- Starting from the value `v`, the first of the next `k + 1` powers of 2 (the first is `v` itself) that equals 1 is the last. -/
def firstOneAt (poly : Poly) : Nat → Byte → Bool
  | 0, v => v == 1
  | k + 1, v => v != 1 && firstOneAt poly k (double poly v)

/-- 2 has order 255 modulo `poly`, so it generates all 255 nonzero elements (00 R12). -/
def primitive (poly : Poly) : Bool := firstOneAt poly 254 (double poly 1)

/-- Both conditions of 00 R12 on one catalog entry. -/
def catalogEntryOk (c : Byte) : Bool := decide (0x80 ≤ c.toNat) && primitive (catalogPoly c)

/-- P1 meets 00 R12. -/
def catalogOk (p : Params) : Bool := p.polyCatalog.toList.all catalogEntryOk

end Sys2Proof.Machine
end

