-- ==== Sys2Proof/Machine/Buffer.lean ====
section
/-! DEFINITION. The six buffer commands (42_buffer_ops.md R174 to R185). Their common checks are `runBuffer` (R170). -/

namespace Sys2Proof.Machine

/-- The loop of `ADD`, and of `MULADD` with scalar 1 (42 R174, R180). -/
def addLoop (d a n : Nat) (m : Memory) : Memory :=
  storeBytes d n (fun m i => m.read (d + i) ^^^ m.read (a + i)) m

/-- The loop of `ADD2` (42 R176). -/
def add2Loop (d a b n : Nat) (m : Memory) : Memory :=
  storeBytes d n (fun m i => m.read (d + i) ^^^ m.read (a + i) ^^^ m.read (b + i)) m

/-- The loop of `ADDSET` (42 R178). -/
def addsetLoop (d a b n : Nat) (m : Memory) : Memory :=
  storeBytes d n (fun m i => m.read (a + i) ^^^ m.read (b + i)) m

/-- The three branches of `MULADD` (42 R180). -/
def muladdLoop (mul : Vector (Vector Byte 256) 256) (s : Byte) (d a n : Nat) (m : Memory) : Memory :=
  if s = 0 then m
  else if s = 1 then addLoop d a n m
  else storeBytes d n (fun m i => m.read (d + i) ^^^ pairAt mul s (m.read (a + i))) m

/-- The three branches of `MUL` (42 R182). With scalar 1 nothing is copied (92 D30). -/
def mulLoop (mul : Vector (Vector Byte 256) 256) (s : Byte) (d a n : Nat) (m : Memory) : Memory :=
  if s = 0 then storeBytes d n (fun _ _ => 0) m
  else if s = 1 then m
  else storeBytes d n (fun m i => pairAt mul s (m.read (a + i))) m

/-- One turn of `SWAP`'s loop: both bytes read, then both written (42 R184). -/
def swapByte (a b i : Nat) (m : Memory) : Memory :=
  (m.write (a + i) (m.read (b + i))).write (b + i) (m.read (a + i))

/-- The loop of `SWAP` (42 R184). -/
def swapLoop (a b n : Nat) (m : Memory) : Memory := forBytes n (swapByte a b) m

/-- `ADD` (42 R174, R175). -/
def execAdd (s : State) : Result :=
  runBuffer .add [.dst, .a] (fun s n => s.disjoint .dst .a n) (fun s n m => addLoop (s.addr .dst) (s.addr .a) n m) s

/-- `ADD2` (42 R176, R177). -/
def execAdd2 (s : State) : Result :=
  runBuffer .add2 [.dst, .a, .b] (fun s n => s.identicalOrDisjoint .dst .a n && s.identicalOrDisjoint .dst .b n)
    (fun s n m => add2Loop (s.addr .dst) (s.addr .a) (s.addr .b) n m) s

/-- `ADDSET` (42 R178, R179). -/
def execAddset (s : State) : Result :=
  runBuffer .addset [.dst, .a, .b] (fun s n => s.disjoint .dst .a n && s.disjoint .dst .b n)
    (fun s n m => addsetLoop (s.addr .dst) (s.addr .a) (s.addr .b) n m) s

/-- `MULADD` (42 R180, R181). -/
def execMuladd (k : Byte) (s : State) : Result :=
  runBuffer (.muladd k) [.dst, .a] (fun s n => s.disjoint .dst .a n)
    (fun s n m => muladdLoop s.ctx.mul k (s.addr .dst) (s.addr .a) n m) s

/-- `MUL` (42 R182, R183). -/
def execMul (k : Byte) (s : State) : Result :=
  runBuffer (.mul k) [.dst, .a] (fun s n => s.disjoint .dst .a n)
    (fun s n m => mulLoop s.ctx.mul k (s.addr .dst) (s.addr .a) n m) s

/-- `SWAP` (42 R184, R185). -/
def execSwap (s : State) : Result :=
  runBuffer .swap [.a, .b] (fun s n => s.disjoint .a .b n) (fun s n m => swapLoop (s.addr .a) (s.addr .b) n m) s

end Sys2Proof.Machine
end

