-- ==== Sys2Proof/Machine/Init.lean ====
section
/-! DEFINITION. `INIT`, the initialization guard (40_table_builder.md R100 to R102). -/

namespace Sys2Proof.Machine

/-- `INIT` (40 R100), its checks in the order of R101, after R100's own first line, `if WRITTEN[ARG] = 0: raise Fault(UNWRITTEN_OPERAND)`
(10 R32, 60 R216). Where the catalog breaks 00 R12 the build is refused, as that rule says
(log 9: DESIGN CHOICE, safe). `INIT_DONE` is set after every table is built (R102). -/
def execInit (s : State) : Result :=
  match s.firstUnwritten [.arg] with
  | some r => .fault (.unwrittenOperand (.command (encode .init)) r)
  | none =>
    if s.regs.arg ≠ s.params.engineVersion then .next (s.complete .versionMismatch)
    else if s.ctx.initDone then .next (s.complete .ok)
    else if s.params.hostLittleEndian = false then .next (s.complete .unsupportedByteOrder)
    else if catalogOk s.params = false then .refused .invalidCatalog
    else .next ((s.setCtx { buildTables s.params with initDone := true }).complete .ok)

end Sys2Proof.Machine
end

