-- ==== Sys2Proof/Machine/Lookup.lean ====
section
/-! DEFINITION. The six lookup commands (41_field_lookups.md R140 to R146). They read no operand register, touch no buffer and are legal
at any time, before `INIT` too (R140, 90 C4). -/

namespace Sys2Proof.Machine

/-- What every lookup does with its value: `r[RESULT] <- v; STATUS.RC <- OK` (41 R140). -/
def answer (v : Word) (s : State) : Result := .next ((s.setResult v).complete .ok)

/-- `GFADD` (41 R141). -/
def execGfadd (x y : Byte) (s : State) : Result := answer ((x ^^^ y).zeroExtend 32) s

/-- `GFMUL` (41 R142). -/
def execGfmul (x y : Byte) (s : State) : Result := answer ((pairAt s.ctx.mul y x).zeroExtend 32) s

/-- `GFDIV` (41 R143): `x / y`; a zero divisor reads the zero sub-table and raises nothing. -/
def execGfdiv (x y : Byte) (s : State) : Result := answer ((pairAt s.ctx.div y x).zeroExtend 32) s

/-- `GFINV` (41 R144). -/
def execGfinv (x : Byte) (s : State) : Result := answer ((invAt s.ctx.inv x).zeroExtend 32) s

/-- `EXPRD` (41 R145). An index of 1020 or more has no legal word; the decoder never gives it, and here it does what an illegal
command does (30 R80; log 20: DEDUCED, safe). -/
def execExprd (idx : BitVec 10) (s : State) : Result :=
  if idx.toNat < 1020 then answer ((expAt s.ctx.exp idx.toNat).zeroExtend 32) s else .next s.illegalCommand

/-- `LOGRD` (41 R146): the entry is 16 bits wide. -/
def execLogrd (x : Byte) (s : State) : Result := answer ((logAt s.ctx.log x).zeroExtend 32) s

end Sys2Proof.Machine
end

