-- ==== Sys2Proof/Machine/Dispatch.lean ====
section
/-! DEFINITION. One arm per command, each one call of its meaning. -/

namespace Sys2Proof.Machine

def exec (i : Instr) (s : State) : Host.Outcome State Fault Refusal :=
  match i with
  | .init => Sys2Proof.Machine.execInit s
  | .add => Sys2Proof.Machine.execAdd s
  | .add2 => Sys2Proof.Machine.execAdd2 s
  | .addset => Sys2Proof.Machine.execAddset s
  | .muladd k => Sys2Proof.Machine.execMuladd k s
  | .mul k => Sys2Proof.Machine.execMul k s
  | .swap => Sys2Proof.Machine.execSwap s
  | .gfadd x y => Sys2Proof.Machine.execGfadd x y s
  | .gfmul x y => Sys2Proof.Machine.execGfmul x y s
  | .gfdiv x y => Sys2Proof.Machine.execGfdiv x y s
  | .gfinv x => Sys2Proof.Machine.execGfinv x s
  | .exprd idx => Sys2Proof.Machine.execExprd idx s
  | .logrd x => Sys2Proof.Machine.execLogrd x s

end Sys2Proof.Machine
end

