-- ==== Sys2Proof/Machine/HostPort.lean ====
section
/-! DEFINITION. The host side: the register window (10_state.md R22 to R32), issuing a command (R23), and the hosts' own actions
(30_encoding.md R83). The window is read and written by whole words only, so its byte order shows nowhere (20 R51; log 18). -/

namespace Sys2Proof.Machine

/-- The register at an offset of the window (10 R22); the other words of the window are reserved (10 R31). -/
inductive HostReg where
  | cmd
  | status
  | operand (r : OperandReg)
  | result
  | polyreg
  | version
  | reserved
  deriving DecidableEq, Repr

/-- The register map (10 R22). -/
def hostReg (offset : Nat) : HostReg :=
  match offset with
  | 0x00 => .cmd
  | 0x04 => .status
  | 0x08 => .operand .dst
  | 0x0C => .operand .a
  | 0x10 => .operand .b
  | 0x14 => .operand .len
  | 0x18 => .operand .arg
  | 0x1C => .result
  | 0x20 => .polyreg
  | 0x24 => .version
  | _ => .reserved

/-- An access the window accepts: a word, aligned, at an offset in 0x00..0x3C (10 R31, 60 R214, 92 D3). -/
def accessOk (offset : Nat) (width : AccessWidth) : Bool :=
  width == .word && offset % 4 == 0 && decide (offset < 0x40)

/-- A word written to `CMD`: decode it, and execute it to completion (10 R23); an illegal word only sets the return code (30 R80). -/
def issue (w : Word) (s : State) : Result :=
  match decode w with
  | .ok i => exec i s
  | .error _ => .next s.illegalCommand

/-- `WR` (30 R83): a write to a read-only or reserved register changes nothing (10 R31). -/
def hostWrite (offset : Nat) (width : AccessWidth) (v : Word) (s : State) : Result :=
  if accessOk offset width = false then .fault (.badRegisterAccess offset width)
  else
    match hostReg offset with
    | .cmd => issue v s
    | .status => .next s
    | .operand r => .next (s.writeReg r v)
    | .result => .next s
    | .polyreg => .next s
    | .version => .next s
    | .reserved => .next s

/-- `RD` (30 R83): the value read is what the host observes. A read has no other effect. An operand register that no host has written
since reset is no value to read: the spec stops the model there (10 R32, 60 R214, 93 Z3, 95 V-B17). -/
def hostRead (offset : Nat) (width : AccessWidth) (s : State) : Result :=
  if accessOk offset width = false then .fault (.badRegisterAccess offset width)
  else
    match hostReg offset with
    | .cmd => .next (s.observe 0)
    | .status => .next (s.observe s.statusWord)
    | .operand r =>
      match s.firstUnwritten [r] with
      | some u => .fault (.unwrittenOperand (.access offset) u)
      | none => .next (s.observe (s.regs.get r))
    | .result => .next (s.observe s.result)
    | .polyreg => .next (s.observe s.polyWord)
    | .version => .next (s.observe s.params.engineVersion)
    | .reserved => .next (s.observe 0)

/-- `MEM` (30 R83): a host's own write of consecutive bytes; a range that does not exist is refused (20 R54; log 8). -/
def hostMem (addr : Word) (bytes : List Byte) (s : State) : Result :=
  if inRange s.params addr.toNat bytes.length = false then .refused (.hostMemoryRange addr bytes.length)
  else .next (s.setMem (s.mem.writeList addr.toNat bytes))

/-- One action of a host, with the command it issues where it writes `CMD` (10 R20, 20 R61). -/
def perform (a : HostAction) (s : State) : Result :=
  match a with
  | .write offset width v => hostWrite offset width v s
  | .read offset width => hostRead offset width s
  | .mem addr bytes => hostMem addr bytes s
  | .reset => .next s.resetBlock

/-- One step: the oldest access that has not reached the block yet reaches it. With none the block is idle and keeps all state
(70 R242, 60 R227; log 6: DESIGN CHOICE, safe). -/
def advance (s : State) : Result :=
  match s.pending with
  | [] => .next s
  | a :: rest => perform a (s.setPending rest)

/-- A host about to write the low `nbits` bits of `w`, the other bits 0, to `CMD`, before anything else that is pending. -/
def placeCommand (nbits w : Nat) (s : State) : State :=
  s.setPending (.write 0x00 .word (BitVec.ofNat 32 (w % 2 ^ nbits)) :: s.pending)

end Sys2Proof.Machine
end

