-- ==== Sys2Proof/Machine/Step.lean ====
section
/-! DEFINITION. The step, and how a command word is placed where the next step takes it. -/

namespace Sys2Proof.Machine

/-- One step of the machine (10 R20, 20 R61). -/
def step (s : State) : Host.Outcome State Fault Refusal := advance s

/-- `s` with the command word `w` the next to be written to `CMD` (log 6). The block fetches nothing (10 R21): a command word exists
only as the data of a `CMD` write (30 R70). -/
def State.withFetchWord (s : State) (nbits w : Nat) : State := placeCommand nbits w s

end Sys2Proof.Machine
end

