-- ==== Sys2Proof/Safety.lean ====
section
/-! DEFINITION. What claims are stated in: the invariant of the machine, which registers and buffers a command uses, when a buffer
command's checks pass, which words are illegal, and what a safe run is. -/

namespace Sys2Proof.Machine

/-! ### The invariant -/

/-- The field context a successful `INIT` leaves (40 R100, R102). -/
def builtContext (p : Params) : FieldContext := { buildTables p with initDone := true }

/-- The field context is unpopulated, or is what a successful `INIT` built from a valid catalog (40 R102, 10 R33, R40). -/
def ContextInv (s : State) : Prop :=
  s.ctx = FieldContext.unpopulated ∨ (catalogOk s.params = true ∧ s.ctx = builtContext s.params)

/-- The invariant every step keeps: buffer memory in its canonical form, and the field context as `ContextInv` says. -/
def Inv (s : State) : Prop := s.mem.wf = true ∧ ContextInv s

/-! ### Which registers and buffers a command uses -/

/-- The operand registers a command reads (30 R78). -/
def readRegisters : Instr → List OperandReg
  | .init => [.arg]
  | .add => [.dst, .a, .len]
  | .add2 => [.dst, .a, .b, .len]
  | .addset => [.dst, .a, .b, .len]
  | .muladd _ => [.dst, .a, .len]
  | .mul _ => [.dst, .a, .len]
  | .swap => [.a, .b, .len]
  | .gfadd _ _ => []
  | .gfmul _ _ => []
  | .gfdiv _ _ => []
  | .gfinv _ => []
  | .exprd _ => []
  | .logrd _ => []

/-- The six buffer commands (42). -/
def isBuffer : Instr → Bool
  | .init => false
  | .add => true
  | .add2 => true
  | .addset => true
  | .muladd _ => true
  | .mul _ => true
  | .swap => true
  | .gfadd _ _ => false
  | .gfmul _ _ => false
  | .gfdiv _ _ => false
  | .gfinv _ => false
  | .exprd _ => false
  | .logrd _ => false

/-- The six lookup commands (41). -/
def isLookup : Instr → Bool
  | .init => false
  | .add => false
  | .add2 => false
  | .addset => false
  | .muladd _ => false
  | .mul _ => false
  | .swap => false
  | .gfadd _ _ => true
  | .gfmul _ _ => true
  | .gfdiv _ _ => true
  | .gfinv _ => true
  | .exprd _ => true
  | .logrd _ => true

/-- The registers that hold a buffer command's buffers, in the order `DST`, `A`, `B` (42 R174 to R184: "the ranges checked"). -/
def bufferOperands : Instr → List OperandReg
  | .init => []
  | .add => [.dst, .a]
  | .add2 => [.dst, .a, .b]
  | .addset => [.dst, .a, .b]
  | .muladd _ => [.dst, .a]
  | .mul _ => [.dst, .a]
  | .swap => [.a, .b]
  | .gfadd _ _ => []
  | .gfmul _ _ => []
  | .gfdiv _ _ => []
  | .gfinv _ => []
  | .exprd _ => []
  | .logrd _ => []

/-- Two field contexts agree on the table a lookup command's rule names (41 R141 to R146: "Tables read"). -/
def SameNamedTable (i : Instr) (c c' : FieldContext) : Prop :=
  match i with
  | .init => True
  | .add => True
  | .add2 => True
  | .addset => True
  | .muladd _ => True
  | .mul _ => True
  | .swap => True
  | .gfadd _ _ => True
  | .gfmul _ _ => c.mul = c'.mul
  | .gfdiv _ _ => c.div = c'.div
  | .gfinv _ => c.inv = c'.inv
  | .exprd _ => c.exp = c'.exp
  | .logrd _ => c.log = c'.log

/-! ### When a buffer command's checks pass -/

/-- Two buffers overlap (20 R57). -/
abbrev Overlap (p q n : Nat) : Prop := 0 < n ∧ p < q + n ∧ q < p + n

/-- The aliasing rule of each buffer command (42 R175, R177, R179, R181, R183, R185). -/
def AliasAllowed (i : Instr) (s : State) (n : Nat) : Prop :=
  match i with
  | .init => True
  | .add => ¬Overlap (s.addr .dst) (s.addr .a) n
  | .add2 =>
    (s.addr .dst = s.addr .a ∨ ¬Overlap (s.addr .dst) (s.addr .a) n) ∧
      (s.addr .dst = s.addr .b ∨ ¬Overlap (s.addr .dst) (s.addr .b) n)
  | .addset => ¬Overlap (s.addr .dst) (s.addr .a) n ∧ ¬Overlap (s.addr .dst) (s.addr .b) n
  | .muladd _ => ¬Overlap (s.addr .dst) (s.addr .a) n
  | .mul _ => ¬Overlap (s.addr .dst) (s.addr .a) n
  | .swap => ¬Overlap (s.addr .a) (s.addr .b) n
  | .gfadd _ _ => True
  | .gfmul _ _ => True
  | .gfdiv _ _ => True
  | .gfinv _ => True
  | .exprd _ => True
  | .logrd _ => True

/-- Every register of `rs` has been written since reset (10 R32). -/
abbrev AllWritten (s : State) (rs : List OperandReg) : Prop := ∀ r ∈ rs, s.written.get r = true

/-- Every buffer of `rs`, with length `n`, is in range (20 R54, R55). -/
abbrev AllInRange (s : State) (rs : List OperandReg) (n : Nat) : Prop := ∀ r ∈ rs, inRange s.params (s.addr r) n = true

/-- A buffer command on the buffers `bufs` passes the checks 1 to 5 of 42 R170, with length `n` above 0. -/
abbrev BufferReady (s : State) (bufs : List OperandReg) (n : Nat) : Prop :=
  AllWritten s bufs ∧ s.written.len = true ∧ s.ctx.initDone = true ∧ s.length = n ∧ 0 < n ∧ AllInRange s bufs n

/-- The address lies outside the buffer `(p, n)`. -/
abbrev Outside (p n x : Nat) : Prop := x < p ∨ p + n ≤ x

/-! ### Illegal words -/

/-- An illegal command word, as 30 R80 lists them: a reserved `OP`, a nonzero reserved bit of the format (30 R73 to R76), or an
`EXPRD` index of 1020 or more. -/
abbrev IllegalWord (w : Word) : Prop :=
  (w.extractLsb' 0 5).toNat = 0 ∨ 0x0E ≤ (w.extractLsb' 0 5).toNat ∨
  ((w.extractLsb' 0 5).toNat ∈ [0x01, 0x02, 0x03, 0x04, 0x07] ∧ w.extractLsb' 5 27 ≠ 0) ∨
  ((w.extractLsb' 0 5).toNat ∈ [0x05, 0x06, 0x0B, 0x0D] ∧ (w.extractLsb' 5 3 ≠ 0 ∨ w.extractLsb' 16 16 ≠ 0)) ∨
  ((w.extractLsb' 0 5).toNat ∈ [0x08, 0x09, 0x0A] ∧ (w.extractLsb' 5 3 ≠ 0 ∨ w.extractLsb' 24 8 ≠ 0)) ∨
  ((w.extractLsb' 0 5).toNat = 0x0C ∧
    (w.extractLsb' 5 3 ≠ 0 ∨ w.extractLsb' 18 14 ≠ 0 ∨ 1020 ≤ (w.extractLsb' 8 10).toNat))

/-! ### Safe runs -/

/-- A state from which `k` steps raise no fault and meet no refusal: the premise of every claim about a run (60 R215). -/
def RunsSafely (k : Nat) (s : State) : Prop := ∃ t, Host.Core.run Sys2Proof.core k s = .next t

end Sys2Proof.Machine
end

