-- ==== Sys2Proof/Certificates/Slice0/Obligations.lean ====
section
/-! DEFINITION. The statements for the provers, from the spec's numbered rules. -/

open Sys2Proof Sys2Proof.Machine

/-! ### Encoding (30_encoding.md) -/

/-- Every well-formed command is read back from its word, every operand bit of it (30 R72 to R79). -/
def Obligations.DecodeOfEncode : Prop :=
  ∀ i : Instr, i.wf = true → decode (encode i) = .ok i

/-- A word that decodes is the word of the command it decodes to, so no two words stand for one command (30 R79). -/
def Obligations.EncodeOfDecode : Prop :=
  ∀ (w : Word) (i : Instr), decode w = .ok i → i.wf = true ∧ encode i = w

/-- 30 R85: the example encodings, and its illegal words. -/
def Obligations.DecodesSpecExampleWords : Prop :=
  decode 0x00000001 = .ok .init ∧ decode 0x00000002 = .ok .add ∧ decode 0x00000003 = .ok .add2 ∧
  decode 0x00000004 = .ok .addset ∧ decode 0x00000205 = .ok (.muladd 0x02) ∧ decode 0x0000FF06 = .ok (.mul 0xFF) ∧
  decode 0x00000007 = .ok .swap ∧ decode 0x00CA5308 = .ok (.gfadd 0x53 0xCA) ∧
  decode 0x00025309 = .ok (.gfmul 0x53 0x02) ∧ decode 0x0002010A = .ok (.gfdiv 0x01 0x02) ∧
  decode 0x0000020B = .ok (.gfinv 0x02) ∧ decode 0x0001FE0C = .ok (.exprd 510) ∧ decode 0x0000530D = .ok (.logrd 0x53) ∧
  decode 0x00000000 = .error .reservedOpcode ∧ decode 0x0000000E = .error .reservedOpcode ∧
  decode 0x00000021 = .error .reservedBits ∧ decode 0x00010005 = .error .reservedBits ∧
  decode 0x0003FC0C = .error .expIndex

/-- 30 R80: which words are illegal, and that writing one to `CMD` changes `STATUS.RC` and nothing else; it is not a fault. -/
def Obligations.IllegalWordOnlySetsReturnCode : Prop :=
  ∀ (w : Word),
    (IllegalWord w → ∀ (s : State) (rest : List HostAction), s.pending = .write 0x00 .word w :: rest →
      step s = .next { s with pending := rest, rc := 0x03 }) ∧
    (¬IllegalWord w → ∃ i, decode w = .ok i)

/-! ### Issuing a command, and the register window (10_state.md) -/

/-- 10 R23: a word written to `CMD` is decoded and the command it names runs to completion in that step, which adds nothing but the
removal of the access from the hosts' queue; a read of `CMD` gives 0. The second clause says the same of `State.withFetchWord`. -/
def Obligations.StepRunsDecodedCommand : Prop :=
  (∀ (s : State) (w : Word) (i : Instr) (rest : List HostAction),
    s.pending = .write 0x00 .word w :: rest → decode w = .ok i → step s = exec i { s with pending := rest }) ∧
  (∀ (s : State) (w : Word) (i : Instr), decode w = .ok i → step (s.withFetchWord 32 w.toNat) = exec i s) ∧
  (∀ (s : State) (rest : List HostAction), s.pending = .read 0x00 .word :: rest →
    step s = .next { s with pending := rest, observed := s.observed ++ [0x00000000] })

/-- With no access pending the block takes no step of its own (10 R20) and keeps all state (60 R227). That such a step is one that
changes nothing is the model's choice (log 6: DESIGN CHOICE). -/
def Obligations.IdleBlockKeepsAllState : Prop :=
  ∀ s : State, s.pending = [] → step s = .next s

/-- What a word read gives at the read-only registers and the reserved offsets (10 R22, R24, R28 to R31), bit field by bit field; the read
changes nothing but the hosts' own queue and observations. -/
def Obligations.ReadOnlyRegisterReads : Prop :=
  ∀ (s : State) (offset : Nat) (rest : List HostAction), s.pending = .read offset .word :: rest →
    (offset = 0x04 → ∃ v : Word, step s = .next { s with pending := rest, observed := s.observed ++ [v] } ∧
      v.getLsbD 0 = s.ctx.initDone ∧ v.extractLsb' 1 7 = 0 ∧ v.extractLsb' 8 8 = s.rc ∧ v.extractLsb' 16 16 = 0) ∧
    (offset = 0x1C → step s = .next { s with pending := rest, observed := s.observed ++ [s.result] }) ∧
    (offset = 0x20 → ∃ v : Word, step s = .next { s with pending := rest, observed := s.observed ++ [v] } ∧
      v.extractLsb' 0 9 = s.ctx.poly ∧ v.extractLsb' 9 23 = 0) ∧
    (offset = 0x24 → step s = .next { s with pending := rest, observed := s.observed ++ [s.params.engineVersion] }) ∧
    (0x28 ≤ offset → offset ≤ 0x3C → offset % 4 = 0 →
      step s = .next { s with pending := rest, observed := s.observed ++ [0x00000000] })

/-- 10 R31: the accesses the window accepts, what reserved offsets and read-only registers do, and the fault of every other access. The fault
records the offset and the exact width, also for a width that R31 does not name (60 R214, 92 D3). -/
def Obligations.RegisterAccessRules : Prop :=
  (∀ (s : State) (offset : Nat) (width : AccessWidth) (v : Word) (rest : List HostAction),
    s.pending = .write offset width v :: rest →
      (width ≠ .word ∨ offset % 4 ≠ 0 ∨ 0x40 ≤ offset → step s = .fault (.badRegisterAccess offset width)) ∧
      (width = .word → offset % 4 = 0 → 0x28 ≤ offset → offset ≤ 0x3C → step s = .next { s with pending := rest }) ∧
      (width = .word → offset = 0x04 ∨ offset = 0x1C ∨ offset = 0x20 ∨ offset = 0x24 →
        step s = .next { s with pending := rest }) ∧
      (width = .word → offset % 4 = 0 → offset ≤ 0x3C → ∀ o w, step s ≠ .fault (.badRegisterAccess o w))) ∧
  (∀ (s : State) (offset : Nat) (width : AccessWidth) (rest : List HostAction),
    s.pending = .read offset width :: rest →
      (width ≠ .word ∨ offset % 4 ≠ 0 ∨ 0x40 ≤ offset → step s = .fault (.badRegisterAccess offset width)) ∧
      (width = .word → offset % 4 = 0 → 0x28 ≤ offset → offset ≤ 0x3C →
        step s = .next { s with pending := rest, observed := s.observed ++ [0x00000000] }) ∧
      (width = .word → offset % 4 = 0 → offset ≤ 0x3C → ∀ o w, step s ≠ .fault (.badRegisterAccess o w)))

/-- A word written to an operand register is the value a later word read gives, whatever it was before and whether or not it was
written before; nothing else of the block changes (10 R25 to R27: "A read returns the last value written"). -/
def Obligations.OperandRegisterWriteThenRead : Prop :=
  ∀ (s : State) (offset : Nat) (r : OperandReg) (v : Word) (rest : List HostAction),
    (offset, r) ∈ [(0x08, OperandReg.dst), (0x0C, .a), (0x10, .b), (0x14, .len), (0x18, .arg)] →
    s.pending = .write offset .word v :: .read offset .word :: rest →
    ∃ t u, step s = .next t ∧ step t = .next u ∧
      t.regs.get r = v ∧ t.written.get r = true ∧
      (∀ q, q ≠ r → t.regs.get q = s.regs.get q ∧ t.written.get q = s.written.get q) ∧
      t = { s with regs := t.regs, written := t.written, pending := .read offset .word :: rest } ∧
      u = { t with pending := rest, observed := s.observed ++ [v] }

/-- 10 R32: the `WRITTEN` bits. Reset clears them, a host write sets its register's; a command or a host read that reads a register
whose bit is 0 raises the fault, naming such a register. -/
def Obligations.UnwrittenOperandFaults : Prop :=
  (∀ r : OperandReg, State.reset.written.get r = false) ∧
  (∀ (s : State) (rest : List HostAction), s.pending = .reset :: rest →
    ∃ t, step s = .next t ∧ ∀ r, t.written.get r = false) ∧
  (∀ (s : State) (offset : Nat) (r : OperandReg) (v : Word) (rest : List HostAction),
    (offset, r) ∈ [(0x08, OperandReg.dst), (0x0C, .a), (0x10, .b), (0x14, .len), (0x18, .arg)] →
    s.pending = .write offset .word v :: rest → ∃ t, step s = .next t ∧ t.written.get r = true) ∧
  (∀ (i : Instr) (s : State), (∃ r ∈ readRegisters i, s.written.get r = false) →
    ∃ r ∈ readRegisters i, s.written.get r = false ∧ exec i s = .fault (.unwrittenOperand (.command (encode i)) r)) ∧
  (∀ (s : State) (offset : Nat) (r : OperandReg) (rest : List HostAction),
    (offset, r) ∈ [(0x08, OperandReg.dst), (0x0C, .a), (0x10, .b), (0x14, .len), (0x18, .arg)] →
    s.pending = .read offset .word :: rest → s.written.get r = false →
    step s = .fault (.unwrittenOperand (.access offset) r))

/-- A host's `MEM` writes its bytes at consecutive addresses and nothing else (30 R83). That a range which does not exist is refused
is the model's choice (log 8: DESIGN CHOICE). -/
def Obligations.HostMemWritesBytes : Prop :=
  ∀ (s : State) (addr : Word) (bytes : List Byte) (rest : List HostAction),
    s.pending = .mem addr bytes :: rest → s.mem.wf = true →
    (inRange s.params addr.toNat bytes.length = true →
      ∃ t, step s = .next t ∧ t = { s with pending := rest, mem := t.mem } ∧
        (∀ k, (h : k < bytes.length) → t.mem.read (addr.toNat + k) = bytes[k]) ∧
        (∀ x, Outside addr.toNat bytes.length x → t.mem.read x = s.mem.read x)) ∧
    (inRange s.params addr.toNat bytes.length = false → step s = .refused (.hostMemoryRange addr bytes.length))

/-! ### Reset (70_reset_and_hazards.md) -/

/-- 70 R240 and R241: the values reset gives (those it gives no value are left out), at the start of a run and at a reset within it; buffer
memory is not changed, and `VERSION` still reads P3. -/
def Obligations.ResetLeavesGivenValues : Prop :=
  (∀ t : State, (t = State.reset ∨ ∃ (s : State) (rest : List HostAction), s.pending = .reset :: rest ∧ step s = .next t) →
    t.ctx.initDone = false ∧ t.statusWord.getLsbD 0 = false ∧ t.statusWord.extractLsb' 1 7 = 0 ∧
    t.statusWord.extractLsb' 16 16 = 0 ∧ (∀ r, t.written.get r = false) ∧ t.ctx.poly = 0 ∧ t.polyWord = 0 ∧
    (∀ k, k < 1020 → expAt t.ctx.exp k = 0) ∧ (∀ x, logAt t.ctx.log x = 0) ∧
    (∀ y x, pairAt t.ctx.mul y x = 0) ∧ (∀ y x, pairAt t.ctx.div y x = 0) ∧ (∀ x, invAt t.ctx.inv x = 0)) ∧
  (∀ (s : State) (rest : List HostAction), s.pending = .reset :: rest →
    ∃ t, step s = .next t ∧ t.mem = s.mem ∧ t.params.engineVersion = s.params.engineVersion)

/-! ### INIT (40_table_builder.md) -/

/-- 40 R101: the preconditions of `INIT` in their order, and that the first that applies decides. Each outcome is the whole next state:
a failed `INIT` touches nothing but `RC`. The build path is `INIT`'s own effect; its catalog meets 00 R12. -/
def Obligations.InitOutcomesInOrder : Prop :=
  ∀ s : State, s.written.arg = true →
    (s.regs.arg ≠ s.params.engineVersion → exec .init s = .next { s with rc := 0x01 }) ∧
    (s.regs.arg = s.params.engineVersion → s.ctx.initDone = true → exec .init s = .next { s with rc := 0x00 }) ∧
    (s.regs.arg = s.params.engineVersion → s.ctx.initDone = false → s.params.hostLittleEndian = false →
      exec .init s = .next { s with rc := 0x02 }) ∧
    (s.regs.arg = s.params.engineVersion → s.ctx.initDone = false → s.params.hostLittleEndian = true →
      catalogOk s.params = true → exec .init s = .next { s with ctx := builtContext s.params, rc := 0x00 })

/-- `INIT` refuses to build from a catalog that breaks 00 R12 ("A model must refuse"); where it refuses is the model's choice (log 9:
DESIGN CHOICE), and no command refuses anything else. -/
def Obligations.OnlyInitRefusesAndOnlyABadCatalog : Prop :=
  (∀ s : State, s.written.arg = true → s.regs.arg = s.params.engineVersion → s.ctx.initDone = false →
    s.params.hostLittleEndian = true → catalogOk s.params = false → exec .init s = .refused .invalidCatalog) ∧
  (∀ (i : Instr) (s : State) (r : Refusal), exec i s = .refused r →
    i = .init ∧ r = .invalidCatalog ∧ catalogOk s.params = false)

/-- A second `INIT` after a successful one reports success and leaves every table as it was (40 R114, §8 scenario 2): nothing changes at all. -/
def Obligations.InitTwiceChangesNothing : Prop :=
  ∀ s t : State, exec .init s = .next t → t.ctx.initDone = true → t.rc = 0x00 → exec .init t = .next t

/-! ### The tables (40_table_builder.md, 41_field_lookups.md) -/

/-- 40 R103 and R104: the index, with values outside the catalog replaced by 0, and the polynomial, with no return code
for the substitution. What R104 derives for the given parameters is `GivenParametersSelect14D`. -/
def Obligations.PolynomialSelection : Prop :=
  (∀ p : Params,
    (∀ k : Fin 16, p.defaultPolyIndex = k.val → (buildTables p).poly.toNat = 2 * p.polyCatalog[k].toNat + 1) ∧
    (p.defaultPolyIndex < 0 ∨ 16 ≤ p.defaultPolyIndex → (buildTables p).poly.toNat = 2 * p.polyCatalog[(0 : Fin 16)].toNat + 1) ∧
    (catalogOk p = true → (buildTables p).poly.getLsbD 8 = true ∧ (buildTables p).poly.getLsbD 0 = true)) ∧
  (∀ s : State, s.written.arg = true → s.regs.arg = s.params.engineVersion → s.ctx.initDone = false →
    s.params.hostLittleEndian = true → catalogOk s.params = true →
    ∃ t, exec .init s = .next t ∧ t.rc = 0x00 ∧ t.ctx.poly = (buildTables s.params).poly)

/-- 40 R104: "With the default P1 and P2, `idx` = 3 and `POLY` = (0xA6 << 1) | 1 = 0x14D". The rule marks this as derived from general
knowledge, and the given P1 and P2 are log 17 (PRESUMED). -/
def Obligations.GivenParametersSelect14D : Prop :=
  (buildTables Params.given).poly = 0x14D

/-- The default catalog meets 00 R12: in every one of the 16 default entries 2 has order 255. -/
def Obligations.DefaultCatalogIsPrimitive : Prop :=
  catalogOk Params.given = true

/-- 40 R110: the closed form of `EXP` and `LOG`. -/
def Obligations.ExpLogClosedForm : Prop :=
  ∀ p : Params, catalogOk p = true →
    (∀ k, k ≤ 510 → expAt (buildTables p).exp k = ge (buildTables p).poly (k % 255)) ∧
    (∀ k, 511 ≤ k → k ≤ 1019 → expAt (buildTables p).exp k = 0) ∧
    logAt (buildTables p).log 0 = 512 ∧
    logAt (buildTables p).log 1 = logOfOneValue p.logOfOne ∧
    (∀ x : Byte, 2 ≤ x.toNat → ∀ k, 1 ≤ k → k ≤ 254 →
      ((logAt (buildTables p).log x).toNat = k ↔ ge (buildTables p).poly k = x)) ∧
    (∀ x : Byte, 2 ≤ x.toNat → 1 ≤ (logAt (buildTables p).log x).toNat ∧ (logAt (buildTables p).log x).toNat ≤ 254)

/-- 40 R111: how `MUL` and `DIV` are made from `EXP` and `LOG`, that every index lies in 0..510, and that the results are the field's
product and quotient, the latter through the reference multiplication of 41 R148. -/
def Obligations.MultiplyDivideTables : Prop :=
  ∀ p : Params, catalogOk p = true →
    (∀ x, pairAt (buildTables p).mul 0 x = 0 ∧ pairAt (buildTables p).div 0 x = 0) ∧
    (∀ y, pairAt (buildTables p).mul y 0 = 0 ∧ pairAt (buildTables p).div y 0 = 0) ∧
    (∀ y x : Byte, y ≠ 0 → x ≠ 0 →
      pairAt (buildTables p).mul y x =
        expAt (buildTables p).exp ((logAt (buildTables p).log x).toNat + (logAt (buildTables p).log y).toNat) ∧
      pairAt (buildTables p).div y x =
        expAt (buildTables p).exp ((logAt (buildTables p).log x).toNat + (255 - (logAt (buildTables p).log y).toNat)) ∧
      (logAt (buildTables p).log y).toNat ≤ 255 ∧
      (logAt (buildTables p).log x).toNat + (logAt (buildTables p).log y).toNat ≤ 510 ∧
      (logAt (buildTables p).log x).toNat + (255 - (logAt (buildTables p).log y).toNat) ≤ 509 ∧
      (p.logOfOne = .zero → (logAt (buildTables p).log x).toNat + (logAt (buildTables p).log y).toNat ≤ 508) ∧
      ((logAt (buildTables p).log x).toNat + (logAt (buildTables p).log y).toNat = 510 → x = 1 ∧ y = 1)) ∧
    (∀ y x : Byte, pairAt (buildTables p).mul y x = gfmul (buildTables p).poly x y) ∧
    (∀ y x : Byte, y ≠ 0 → gfmul (buildTables p).poly y (pairAt (buildTables p).div y x) = x)

/-- 41 R148, R147: the tables satisfy `MUL[y][x] = gfmul(x, y)`, for every catalog that 00 R12 allows, and so in every state of the machine in
which `INIT_DONE` is 1. -/
def Obligations.MulTableIsReferenceProduct : Prop :=
  ∀ s : State, Inv s → s.ctx.initDone = true → ∀ x y : Byte, pairAt s.ctx.mul y x = gfmul s.ctx.poly x y

/-- 40 R112: the inverse table. -/
def Obligations.InverseTable : Prop :=
  ∀ p : Params, catalogOk p = true →
    (∀ x : Byte, invAt (buildTables p).inv x = pairAt (buildTables p).div x 1) ∧
    invAt (buildTables p).inv 0 = 0 ∧ pairAt (buildTables p).div 0 1 = 0 ∧
    (∀ x : Byte, x ≠ 0 → gfmul (buildTables p).poly x (invAt (buildTables p).inv x) = 1)

/-- 40 R115: the invariants of the tables once `INIT_DONE` is 1. -/
def Obligations.TableInvariantsAfterInit : Prop :=
  ∀ s : State, Inv s → s.ctx.initDone = true →
    (∀ x y : Byte, pairAt s.ctx.mul y x = pairAt s.ctx.mul x y) ∧
    (∀ y : Byte, pairAt s.ctx.mul y 0 = 0) ∧
    (∀ x : Byte, x ≠ 0 → pairAt s.ctx.mul (invAt s.ctx.inv x) x = 1) ∧
    (∀ k, 1 ≤ k → k ≤ 254 → (logAt s.ctx.log (expAt s.ctx.exp (k % 255))).toNat = k % 255) ∧
    ((logAt s.ctx.log (expAt s.ctx.exp 0)).toNat = 0 ↔ s.params.logOfOne = .zero)

/-- 40 R116: the field laws once `INIT_DONE` is 1, with `M(x, y) = MUL[y][x]`. -/
def Obligations.FieldLawsAfterInit : Prop :=
  ∀ s : State, Inv s → s.ctx.initDone = true →
    (∀ x y : Byte, pairAt s.ctx.mul y x = pairAt s.ctx.mul x y) ∧
    (∀ x y z : Byte, pairAt s.ctx.mul (pairAt s.ctx.mul z y) x = pairAt s.ctx.mul z (pairAt s.ctx.mul y x)) ∧
    (∀ x y z : Byte, pairAt s.ctx.mul (y ^^^ z) x = pairAt s.ctx.mul y x ^^^ pairAt s.ctx.mul z x) ∧
    (∀ x : Byte, pairAt s.ctx.mul 1 x = x) ∧
    (∀ x : Byte, pairAt s.ctx.mul 0 x = 0) ∧
    (∀ x : Byte, x ≠ 0 → expAt s.ctx.exp (logAt s.ctx.log x).toNat = x)

/-- No table entry but `LOG[1]` depends on P5 (40 R107, 95 V-B14). -/
def Obligations.LogOfOneShowsOnlyInLogOne : Prop :=
  ∀ (p : Params) (c : LogOfOne), catalogOk p = true →
    buildTables { p with logOfOne := c } = { buildTables p with log := (buildTables { p with logOfOne := c }).log } ∧
    (∀ x : Byte, x ≠ 1 → logAt (buildTables { p with logOfOne := c }).log x = logAt (buildTables p).log x) ∧
    logAt (buildTables { p with logOfOne := c }).log 1 = logOfOneValue c

/-! ### The lookup commands (41_field_lookups.md) -/

/-- 41 R140: a lookup completes in every state; it writes `RESULT` and `RC` and nothing else; its value depends on the table
its rule names alone, not on operand registers or buffers; before `INIT` it is 0 but for `GFADD`. -/
def Obligations.LookupsCompleteInEveryState : Prop :=
  (∀ i : Instr, isLookup i = true → i.wf = true →
    ∃ value : FieldContext → Half,
      (∀ s : State, exec i s = .next { s with result := (value s.ctx).zeroExtend 32, rc := 0x00 }) ∧
      (∀ c c' : FieldContext, SameNamedTable i c c' → value c = value c')) ∧
  (∀ (i : Instr) (s : State), isLookup i = true → i.wf = true → (∀ x y, i ≠ .gfadd x y) → s.ctx = FieldContext.unpopulated →
    exec i s = .next { s with result := 0, rc := 0x00 })

/-- 41 R141: `GFADD`. -/
def Obligations.GfaddXorsItsOperands : Prop :=
  (∀ (x y : Byte) (s : State), exec (.gfadd x y) s = .next { s with result := (x ^^^ y).zeroExtend 32, rc := 0x00 }) ∧
  (∀ (x : Byte) (s : State), exec (.gfadd x x) s = .next { s with result := 0, rc := 0x00 }) ∧
  (∀ (x : Byte) (s : State), exec (.gfadd x 0) s = .next { s with result := x.zeroExtend 32, rc := 0x00 }) ∧
  (∀ s : State, exec (.gfadd 0x53 0xCA) s = .next { s with result := 0x00000099, rc := 0x00 }) ∧
  (∀ x y : Byte, ∃ w : Word, encode (.gfadd x y) = w ∧ w.extractLsb' 0 8 = 0x08 ∧ w.extractLsb' 8 8 = x ∧
    w.extractLsb' 16 8 = y ∧ w.extractLsb' 24 8 = 0)

/-- 41 R142: `GFMUL` reads sub-table `y` of `MUL` at `x`; its corner cases and examples after `INIT`, and 0 before it. -/
def Obligations.GfmulReadsMulTable : Prop :=
  (∀ (x y : Byte) (s : State),
    exec (.gfmul x y) s = .next { s with result := (pairAt s.ctx.mul y x).zeroExtend 32, rc := 0x00 }) ∧
  (∀ (x y : Byte) (s : State), s.ctx = FieldContext.unpopulated →
    exec (.gfmul x y) s = .next { s with result := 0, rc := 0x00 }) ∧
  (∀ s : State, Inv s → s.ctx.initDone = true →
    (∀ x y : Byte, x = 0 ∨ y = 0 → exec (.gfmul x y) s = .next { s with result := 0, rc := 0x00 }) ∧
    (∀ y : Byte, exec (.gfmul 1 y) s = .next { s with result := y.zeroExtend 32, rc := 0x00 }) ∧
    (∀ x : Byte, exec (.gfmul x 1) s = .next { s with result := x.zeroExtend 32, rc := 0x00 }) ∧
    (∀ x y : Byte, exec (.gfmul x y) s = exec (.gfmul y x) s) ∧
    exec (.gfmul 0x53 0x02) s = .next { s with result := 0xA6, rc := 0x00 } ∧
    (s.ctx.poly = 0x14D → exec (.gfmul 0x80 0x02) s = .next { s with result := 0x4D, rc := 0x00 })) ∧
  (∀ x y : Byte, ∃ w : Word, encode (.gfmul x y) = w ∧ w.extractLsb' 0 8 = 0x09 ∧ w.extractLsb' 8 8 = x ∧
    w.extractLsb' 16 8 = y ∧ w.extractLsb' 24 8 = 0)

/-- 41 R143: `GFDIV` reads sub-table `y` of `DIV` at `x`; division by zero gives 0 and raises nothing. -/
def Obligations.GfdivReadsDivTable : Prop :=
  (∀ (x y : Byte) (s : State),
    exec (.gfdiv x y) s = .next { s with result := (pairAt s.ctx.div y x).zeroExtend 32, rc := 0x00 }) ∧
  (∀ (x y : Byte) (s : State), s.ctx = FieldContext.unpopulated →
    exec (.gfdiv x y) s = .next { s with result := 0, rc := 0x00 }) ∧
  (∀ s : State, Inv s → s.ctx.initDone = true →
    (∀ x : Byte, exec (.gfdiv x 0) s = .next { s with result := 0, rc := 0x00 }) ∧
    (∀ y : Byte, exec (.gfdiv 0 y) s = .next { s with result := 0, rc := 0x00 }) ∧
    (∀ x : Byte, exec (.gfdiv x 1) s = .next { s with result := x.zeroExtend 32, rc := 0x00 }) ∧
    (∀ x : Byte, x ≠ 0 → exec (.gfdiv x x) s = .next { s with result := 1, rc := 0x00 }) ∧
    exec (.gfdiv 0xA6 0x02) s = .next { s with result := 0x53, rc := 0x00 } ∧
    (s.ctx.poly = 0x14D → exec (.gfdiv 0x01 0x02) s = .next { s with result := 0xA6, rc := 0x00 })) ∧
  (∀ x y : Byte, ∃ w : Word, encode (.gfdiv x y) = w ∧ w.extractLsb' 0 8 = 0x0A ∧ w.extractLsb' 8 8 = x ∧
    w.extractLsb' 16 8 = y ∧ w.extractLsb' 24 8 = 0)

/-- 41 R144: `GFINV` reads `INV`; the inverse of 0 is the degenerate 0. -/
def Obligations.GfinvReadsInverseTable : Prop :=
  (∀ (x : Byte) (s : State), exec (.gfinv x) s = .next { s with result := (invAt s.ctx.inv x).zeroExtend 32, rc := 0x00 }) ∧
  (∀ (x : Byte) (s : State), s.ctx = FieldContext.unpopulated → exec (.gfinv x) s = .next { s with result := 0, rc := 0x00 }) ∧
  (∀ s : State, Inv s → s.ctx.initDone = true →
    exec (.gfinv 0) s = .next { s with result := 0, rc := 0x00 } ∧
    exec (.gfinv 1) s = .next { s with result := 1, rc := 0x00 } ∧
    (s.ctx.poly = 0x14D → exec (.gfinv 0x02) s = .next { s with result := 0xA6, rc := 0x00 } ∧
      exec (.gfinv 0x53) s = .next { s with result := 0x04, rc := 0x00 })) ∧
  (∀ x : Byte, ∃ w : Word, encode (.gfinv x) = w ∧ w.extractLsb' 0 8 = 0x0B ∧ w.extractLsb' 8 8 = x ∧ w.extractLsb' 16 16 = 0)

/-- 41 R145: `EXPRD` reads `EXP`; the word of an index of 1020 or more is illegal. What `exec` does with a term of such an index is
`ExprdTermBeyondExpSetsIllegalCommand`. -/
def Obligations.ExprdReadsExpTable : Prop :=
  (∀ (k : BitVec 10) (s : State), k.toNat < 1020 →
    exec (.exprd k) s = .next { s with result := (expAt s.ctx.exp k.toNat).zeroExtend 32, rc := 0x00 }) ∧
  (∀ k : BitVec 10, 1020 ≤ k.toNat → IllegalWord (encode (.exprd k))) ∧
  (∀ (k : BitVec 10) (s : State), k.toNat < 1020 → s.ctx = FieldContext.unpopulated →
    exec (.exprd k) s = .next { s with result := 0, rc := 0x00 }) ∧
  (∀ s : State, Inv s → s.ctx.initDone = true →
    (∀ k : BitVec 10, k = 0 ∨ k = 255 ∨ k = 510 → exec (.exprd k) s = .next { s with result := 1, rc := 0x00 }) ∧
    (∀ k : BitVec 10, 511 ≤ k.toNat → k.toNat ≤ 1019 → exec (.exprd k) s = .next { s with result := 0, rc := 0x00 }) ∧
    (∀ k : BitVec 10, k.toNat ≤ 510 → exec (.exprd k) s = exec (.exprd (BitVec.ofNat 10 (k.toNat % 255))) s) ∧
    exec (.exprd 7) s = .next { s with result := 0x80, rc := 0x00 } ∧
    (s.ctx.poly = 0x14D → exec (.exprd 8) s = .next { s with result := 0x4D, rc := 0x00 })) ∧
  (∀ k : BitVec 10, ∃ w : Word, encode (.exprd k) = w ∧ w.extractLsb' 0 8 = 0x0C ∧ w.extractLsb' 8 10 = k ∧
    w.extractLsb' 18 14 = 0)

/-- The term `EXPRD` with an index of 1020 or more, which no word decodes to, does in `exec` what its illegal word does (30 R80). That
it does so is the model's choice (log 20: DEDUCED). -/
def Obligations.ExprdTermBeyondExpSetsIllegalCommand : Prop :=
  ∀ (k : BitVec 10) (s : State), 1020 ≤ k.toNat → exec (.exprd k) s = .next { s with rc := 0x03 }

/-- 41 R146: `LOGRD` reads `LOG`, the whole 16-bit entry. -/
def Obligations.LogrdReadsLogTable : Prop :=
  (∀ (x : Byte) (s : State), exec (.logrd x) s = .next { s with result := (logAt s.ctx.log x).zeroExtend 32, rc := 0x00 }) ∧
  (∀ (x : Byte) (s : State), s.ctx = FieldContext.unpopulated → exec (.logrd x) s = .next { s with result := 0, rc := 0x00 }) ∧
  (∀ s : State, Inv s → s.ctx.initDone = true →
    exec (.logrd 0) s = .next { s with result := 512, rc := 0x00 } ∧
    (s.params.logOfOne = .zero → exec (.logrd 1) s = .next { s with result := 0, rc := 0x00 }) ∧
    (s.params.logOfOne = .twoFiftyFive → exec (.logrd 1) s = .next { s with result := 255, rc := 0x00 }) ∧
    exec (.logrd 2) s = .next { s with result := 1, rc := 0x00 } ∧
    (s.ctx.poly = 0x14D → exec (.logrd 0x53) s = .next { s with result := 253, rc := 0x00 })) ∧
  (∀ x : Byte, ∃ w : Word, encode (.logrd x) = w ∧ w.extractLsb' 0 8 = 0x0D ∧ w.extractLsb' 8 8 = x ∧ w.extractLsb' 16 16 = 0)

/-! ### The buffer commands (42_buffer_ops.md) -/

/-- 42 R170 to R173: the checks of every buffer command in their order, the first that fails decides; with every check passed the command
completes, writing buffer memory and `RC` alone. -/
def Obligations.BufferCheckOrder : Prop :=
  ∀ (i : Instr) (s : State), isBuffer i = true →
    ((∃ r ∈ readRegisters i, s.written.get r = false) →
      ∃ r ∈ readRegisters i, s.written.get r = false ∧ exec i s = .fault (.unwrittenOperand (.command (encode i)) r)) ∧
    (AllWritten s (readRegisters i) → s.ctx.initDone = false → exec i s = .fault (.preInit (encode i))) ∧
    (AllWritten s (readRegisters i) → s.ctx.initDone = true → s.regs.len.toInt < 0 →
      exec i s = .fault (.negativeLength (encode i) s.regs.len)) ∧
    (AllWritten s (readRegisters i) → s.ctx.initDone = true → s.regs.len.toInt = 0 → exec i s = .next { s with rc := 0x00 }) ∧
    (∀ n : Nat, AllWritten s (readRegisters i) → s.ctx.initDone = true → s.regs.len.toInt = n → 0 < n →
      (∀ (before after : List OperandReg) (r : OperandReg), bufferOperands i = before ++ r :: after →
        AllInRange s before n → inRange s.params (s.addr r) n = false → exec i s = .fault (.range (encode i) r)) ∧
      (AllInRange s (bufferOperands i) n → ¬AliasAllowed i s n → exec i s = .fault (.aliasing (encode i))) ∧
      (AllInRange s (bufferOperands i) n → AliasAllowed i s n →
        ∃ t, exec i s = .next t ∧ t = { s with mem := t.mem, rc := 0x00 }))

/-- 42 R175, R177, R179, R181, R183, R185: with the earlier checks passed, a buffer command raises `ALIAS` exactly where its aliasing rule
is broken, whatever its scalar. -/
def Obligations.AliasingRules : Prop :=
  ∀ (s : State) (n : Nat),
    (BufferReady s [.dst, .a] n →
      (exec .add s = .fault (.aliasing (encode .add)) ↔ Overlap (s.addr .dst) (s.addr .a) n) ∧
      (∀ k, exec (.muladd k) s = .fault (.aliasing (encode (.muladd k))) ↔ Overlap (s.addr .dst) (s.addr .a) n) ∧
      (∀ k, exec (.mul k) s = .fault (.aliasing (encode (.mul k))) ↔ Overlap (s.addr .dst) (s.addr .a) n)) ∧
    (BufferReady s [.dst, .a, .b] n →
      (exec .add2 s = .fault (.aliasing (encode .add2)) ↔
        (Overlap (s.addr .dst) (s.addr .a) n ∧ s.addr .dst ≠ s.addr .a) ∨
        (Overlap (s.addr .dst) (s.addr .b) n ∧ s.addr .dst ≠ s.addr .b)) ∧
      (exec .addset s = .fault (.aliasing (encode .addset)) ↔
        Overlap (s.addr .dst) (s.addr .a) n ∨ Overlap (s.addr .dst) (s.addr .b) n)) ∧
    (BufferReady s [.a, .b] n →
      (exec .swap s = .fault (.aliasing (encode .swap)) ↔ Overlap (s.addr .a) (s.addr .b) n))

/-- `ADD` (42 R174): every byte of `dst` XORed with the byte of `src`; every other byte of memory, every register and table as before. -/
def Obligations.AddAccumulatesXor : Prop :=
  ∀ (s : State) (n : Nat), s.mem.wf = true → BufferReady s [.dst, .a] n → AliasAllowed .add s n →
    ∃ t, exec .add s = .next t ∧ t = { s with mem := t.mem, rc := 0x00 } ∧
      (∀ k, k < n → t.mem.read (s.addr .dst + k) = s.mem.read (s.addr .dst + k) ^^^ s.mem.read (s.addr .a + k)) ∧
      (∀ x, Outside (s.addr .dst) n x → t.mem.read x = s.mem.read x)

/-- `ADD2` (42 R176): `dst[i] ^= a[i] ^ b[i]`, also where `dst` is `a`, `b` or both. -/
def Obligations.Add2FoldsThreeBuffers : Prop :=
  ∀ (s : State) (n : Nat), s.mem.wf = true → BufferReady s [.dst, .a, .b] n → AliasAllowed .add2 s n →
    ∃ t, exec .add2 s = .next t ∧ t = { s with mem := t.mem, rc := 0x00 } ∧
      (∀ k, k < n → t.mem.read (s.addr .dst + k) =
        s.mem.read (s.addr .dst + k) ^^^ s.mem.read (s.addr .a + k) ^^^ s.mem.read (s.addr .b + k)) ∧
      (∀ x, Outside (s.addr .dst) n x → t.mem.read x = s.mem.read x)

/-- `ADDSET` (42 R178): `dst[i] = a[i] ^ b[i]`, whatever `dst` held. -/
def Obligations.AddsetOverwritesWithXor : Prop :=
  ∀ (s : State) (n : Nat), s.mem.wf = true → BufferReady s [.dst, .a, .b] n → AliasAllowed .addset s n →
    ∃ t, exec .addset s = .next t ∧ t = { s with mem := t.mem, rc := 0x00 } ∧
      (∀ k, k < n → t.mem.read (s.addr .dst + k) = s.mem.read (s.addr .a + k) ^^^ s.mem.read (s.addr .b + k)) ∧
      (∀ x, Outside (s.addr .dst) n x → t.mem.read x = s.mem.read x)

/-- `MULADD` (42 R180): its three branches, and, since `INIT_DONE` = 1, that all three are `dst[i] ^= gfmul(src[i], s)`. -/
def Obligations.MuladdAccumulatesProduct : Prop :=
  ∀ (s : State) (c : Byte) (n : Nat), s.mem.wf = true → BufferReady s [.dst, .a] n → AliasAllowed (.muladd c) s n →
    ∃ t, exec (.muladd c) s = .next t ∧ t = { s with mem := t.mem, rc := 0x00 } ∧
      (c = 0 → t.mem = s.mem) ∧
      (c = 1 → exec .add s = .next t) ∧
      (c ≠ 0 → c ≠ 1 → ∀ k, k < n → t.mem.read (s.addr .dst + k) =
        s.mem.read (s.addr .dst + k) ^^^ pairAt s.ctx.mul c (s.mem.read (s.addr .a + k))) ∧
      (Inv s → ∀ k, k < n → t.mem.read (s.addr .dst + k) =
        s.mem.read (s.addr .dst + k) ^^^ gfmul s.ctx.poly (s.mem.read (s.addr .a + k)) c) ∧
      (∀ x, Outside (s.addr .dst) n x → t.mem.read x = s.mem.read x)

/-- `MUL` (42 R182): scalar 0 clears `dst`, scalar 1 leaves it (it copies nothing), any other stores the product. -/
def Obligations.MulStoresProduct : Prop :=
  ∀ (s : State) (c : Byte) (n : Nat), s.mem.wf = true → BufferReady s [.dst, .a] n → AliasAllowed (.mul c) s n →
    ∃ t, exec (.mul c) s = .next t ∧ t = { s with mem := t.mem, rc := 0x00 } ∧
      (c = 0 → ∀ k, k < n → t.mem.read (s.addr .dst + k) = 0) ∧
      (c = 1 → t.mem = s.mem) ∧
      (c ≠ 0 → c ≠ 1 → ∀ k, k < n → t.mem.read (s.addr .dst + k) = pairAt s.ctx.mul c (s.mem.read (s.addr .a + k))) ∧
      (Inv s → c ≠ 1 → ∀ k, k < n → t.mem.read (s.addr .dst + k) = gfmul s.ctx.poly (s.mem.read (s.addr .a + k)) c) ∧
      (∀ x, Outside (s.addr .dst) n x → t.mem.read x = s.mem.read x)

/-- `SWAP` (42 R184): each buffer holds the other's bytes; `DST` is not read. -/
def Obligations.SwapExchangesBuffers : Prop :=
  ∀ (s : State) (n : Nat), s.mem.wf = true → BufferReady s [.a, .b] n → AliasAllowed .swap s n →
    ∃ t, exec .swap s = .next t ∧ t = { s with mem := t.mem, rc := 0x00 } ∧
      (∀ k, k < n → t.mem.read (s.addr .a + k) = s.mem.read (s.addr .b + k) ∧
        t.mem.read (s.addr .b + k) = s.mem.read (s.addr .a + k)) ∧
      (∀ x, Outside (s.addr .a) n x → Outside (s.addr .b) n x → t.mem.read x = s.mem.read x)

/-! ### Laws of the buffer commands (42 R186) -/

/-- Additive involution: `ADD` twice with the same source restores all of memory (42 R186, 95 V-A4). -/
def Obligations.AddTwiceRestoresMemory : Prop :=
  ∀ (s : State) (n : Nat), s.mem.wf = true → BufferReady s [.dst, .a] n → AliasAllowed .add s n →
    ∃ t, exec .add s = .next t ∧ exec .add t = .next { s with rc := 0x00 }

/-- Swap involution (42 R186, 95 V-A8). -/
def Obligations.SwapTwiceRestoresMemory : Prop :=
  ∀ (s : State) (n : Nat), s.mem.wf = true → BufferReady s [.a, .b] n → AliasAllowed .swap s n →
    ∃ t, exec .swap s = .next t ∧ exec .swap t = .next { s with rc := 0x00 }

/-- `ADDSET` equals `ADD2` where `dst` starts all zero (42 R186, 95 V-A5): the same next state. -/
def Obligations.AddsetEqualsAdd2OnZeroDst : Prop :=
  ∀ (s : State) (n : Nat), s.mem.wf = true → BufferReady s [.dst, .a, .b] n → AliasAllowed .addset s n →
    (∀ k, k < n → s.mem.read (s.addr .dst + k) = 0) →
    ∃ t, exec .addset s = .next t ∧ exec .add2 s = .next t

/-- Distributivity (42 R186): `MULADD` by `c` and then by `e` from the same source adds the product by `c ^ e`, the state a single
`MULADD` by `c ^ e` gives. -/
def Obligations.MuladdDistributesOverScalars : Prop :=
  ∀ (s : State) (c e : Byte) (n : Nat), Inv s → BufferReady s [.dst, .a] n → AliasAllowed .add s n →
    ∃ t u, exec (.muladd c) s = .next t ∧ exec (.muladd e) t = .next u ∧ exec (.muladd (c ^^^ e)) s = .next u ∧
      (∀ k, k < n → u.mem.read (s.addr .dst + k) =
        s.mem.read (s.addr .dst + k) ^^^ gfmul s.ctx.poly (s.mem.read (s.addr .a + k)) (c ^^^ e))

/-- Inverse scaling (42 R186): for a scalar `c` other than 0 and 1, `MUL y, x, c` and then `MUL z, y, INV[c]` leaves `z = x`; `INV[c]` is
neither 0 nor 1. `s` is the state of the first command, `s'` that of the second, with the hosts' new addresses. -/
def Obligations.InverseScalingRestoresSource : Prop :=
  ∀ (s t s' : State) (c : Byte) (n : Nat), Inv s → c ≠ 0 → c ≠ 1 →
    BufferReady s [.dst, .a] n → AliasAllowed (.mul c) s n → exec (.mul c) s = .next t →
    s'.mem = t.mem → s'.ctx = t.ctx → s'.params = t.params → s'.addr .a = s.addr .dst →
    BufferReady s' [.dst, .a] n → AliasAllowed (.mul c) s' n →
    invAt s.ctx.inv c ≠ 0 ∧ invAt s.ctx.inv c ≠ 1 ∧
    ∃ u, exec (.mul (invAt s.ctx.inv c)) s' = .next u ∧
      (∀ k, k < n → u.mem.read (s'.addr .dst + k) = s.mem.read (s.addr .a + k))

/-! ### Rules about every step -/

/-- Every step keeps the invariant: memory in its canonical form, and `INIT_DONE` = 1 implies that `POLY` and every table hold exactly what
the build gives for a valid catalog, and otherwise that they are unpopulated (40 R102, 10 R33, R40). -/
def Obligations.StepKeepsInvariant : Prop :=
  ∀ s t : State, Inv s → step s = .next t → Inv t

/-- The invariant holds at reset. -/
def Obligations.ResetMeetsInvariant : Prop :=
  Inv State.reset

/-- 20 R63: once `INIT_DONE` is 1, no step but a reset changes a table, `POLY` or `INIT_DONE`. -/
def Obligations.TablesNeverChangeOnceBuilt : Prop :=
  ∀ (s t : State), s.ctx.initDone = true → (∀ rest, s.pending ≠ .reset :: rest) → step s = .next t → t.ctx = s.ctx

/-- Only the build path of `INIT` sets `INIT_DONE`, and only reset clears it (10 R33, R40): a step that changes anything of the field context
is one or the other. -/
def Obligations.OnlyInitAndResetWriteFieldContext : Prop :=
  ∀ (s t : State), step s = .next t → t.ctx ≠ s.ctx →
    (∃ rest, s.pending = .reset :: rest) ∨
    (∃ rest, s.pending = .write 0x00 .word 0x00000001 :: rest ∧ s.ctx.initDone = false ∧ t.ctx = builtContext s.params ∧
      t.rc = 0x00 ∧ s.regs.arg = s.params.engineVersion)

/-- The parameters P1 to P6 are fixed (00 R10): no step writes them, so `VERSION` always reads P3 (10 R30). -/
def Obligations.ParametersNeverChange : Prop :=
  ∀ s t : State, step s = .next t → t.params = s.params

/-- `RESULT` changes only by a lookup command or by reset (10 R28, 70 R248): `INIT`, the buffer commands, illegal words and every other
host access leave it. -/
def Obligations.OnlyLookupsAndResetWriteResult : Prop :=
  ∀ (s t : State), step s = .next t → t.result ≠ s.result →
    (∃ rest, s.pending = .reset :: rest) ∨
    (∃ w i rest, s.pending = .write 0x00 .word w :: rest ∧ decode w = .ok i ∧ isLookup i = true)

/-- 60 R211: the return codes each command can produce; a command that faults gives no next state, so it writes none. -/
def Obligations.ReturnCodesOfEachCommand : Prop :=
  (∀ s t : State, exec .init s = .next t → t.rc = 0x00 ∨ t.rc = 0x01 ∨ t.rc = 0x02) ∧
  (∀ (i : Instr) (s t : State), isBuffer i = true → exec i s = .next t → t.rc = 0x00) ∧
  (∀ (i : Instr) (s t : State), isLookup i = true → i.wf = true → exec i s = .next t → t.rc = 0x00) ∧
  (∀ (w : Word) (s : State) (rest : List HostAction), IllegalWord w → s.pending = .write 0x00 .word w :: rest →
    ∃ t, step s = .next t ∧ t.rc = 0x03)

/-- The frame of every command at once (20 R50, R59, 42 R170, 41 R140, 40 R100): what no command writes, and what only one kind of command
writes. -/
def Obligations.FrameOfEveryCommand : Prop :=
  ∀ (i : Instr) (s t : State), exec i s = .next t →
    t.params = s.params ∧ t.regs = s.regs ∧ t.written = s.written ∧ t.pending = s.pending ∧ t.observed = s.observed ∧
    t.resets = s.resets ∧
    (isBuffer i = false → t.mem = s.mem) ∧ (isLookup i = false → t.result = s.result) ∧ (i ≠ .init → t.ctx = s.ctx)

/-- 30 R71: a command reads only the registers listed for it; writing another operand register before it makes no difference but that
register's own value and `WRITTEN` bit. -/
def Obligations.UnlistedRegistersDoNotMatter : Prop :=
  ∀ (i : Instr) (s : State) (r : OperandReg) (v : Word), r ∉ readRegisters i →
    (∀ t, exec i s = .next t → exec i (s.writeReg r v) = .next (t.writeReg r v)) ∧
    (∀ f, exec i s = .fault f → exec i (s.writeReg r v) = .fault f) ∧
    (∀ t, exec i s = .next t → t.regs.get r = s.regs.get r ∧ t.written.get r = s.written.get r)
end

