-- ==== Sys2Proof/Laws/Memory.lean ====
section
/-! SUPPORT. Buffer memory: read after write, writes elsewhere, the canonical form, and the byte loops. -/

namespace Sys2Proof.Machine

/-! ### One byte -/

@[simp] theorem Memory.read_nil (x : Nat) : Memory.read [] x = 0 := rfl

theorem Memory.wfFrom_mono {m : Memory} {lo lo' : Nat} (h : lo ≤ lo') (hw : m.wfFrom lo' = true) : m.wfFrom lo = true := by
  cases m with
  | nil => rfl
  | cons c m =>
    simp only [Memory.wfFrom, Bool.and_eq_true, decide_eq_true_eq] at hw ⊢
    exact ⟨⟨⟨by omega, hw.1.1.2⟩, hw.1.2⟩, hw.2⟩

/-- Below the first address of a canonical memory nothing is listed. -/
theorem Memory.read_below {m : Memory} {lo x : Nat} (hw : m.wfFrom lo = true) (hx : x < lo) : m.read x = 0 := by
  induction m generalizing lo with
  | nil => rfl
  | cons c m ih =>
    simp only [Memory.wfFrom, Bool.and_eq_true, decide_eq_true_eq] at hw
    have hne : c.1 ≠ x := by omega
    simp only [Memory.read, hne, if_false]
    exact ih hw.2 (by omega)

theorem Memory.read_list {m : Memory} {a : Nat} (h : m.read a = 0) (v : Byte) (x : Nat) :
    (Memory.list a v m).read x = if x = a then v else m.read x := by
  unfold Memory.list
  by_cases hv : v = 0
  · rw [if_pos hv]
    by_cases hx : x = a
    · rw [if_pos hx, hx, h, hv]
    · rw [if_neg hx]
  · rw [if_neg hv]
    by_cases hx : x = a
    · rw [if_pos hx, Memory.read, if_pos hx.symm]
    · rw [if_neg hx, Memory.read, if_neg (Ne.symm hx)]

theorem Memory.wfFrom_list {m : Memory} {lo a : Nat} (hm : m.wfFrom (a + 1) = true) (hlo : lo ≤ a) (ha : a < 2 ^ 32) (v : Byte) :
    (Memory.list a v m).wfFrom lo = true := by
  unfold Memory.list
  by_cases hv : v = 0
  · rw [if_pos hv]
    exact Memory.wfFrom_mono (by omega) hm
  · rw [if_neg hv]
    simp only [Memory.wfFrom, Bool.and_eq_true, decide_eq_true_eq]
    exact ⟨⟨⟨hlo, ha⟩, hv⟩, hm⟩

theorem Memory.read_write_from {m : Memory} {lo : Nat} (hw : m.wfFrom lo = true) (a : Nat) (v : Byte) (x : Nat) :
    (m.write a v).read x = if x = a then v else m.read x := by
  induction m generalizing lo with
  | nil => exact Memory.read_list rfl v x
  | cons c m ih =>
    obtain ⟨b, u⟩ := c
    have hw' := hw
    simp only [Memory.wfFrom, Bool.and_eq_true, decide_eq_true_eq] at hw
    have hm := hw.2
    unfold Memory.write
    rcases Nat.lt_trichotomy a b with hlt | heq | hgt
    · have hz : Memory.read ((b, u) :: m) a = 0 := by
        rw [Memory.read, if_neg (by omega)]
        exact Memory.read_below hm (by omega)
      rw [if_pos hlt]
      exact Memory.read_list hz v x
    · subst heq
      rw [if_neg (Nat.lt_irrefl a), if_pos rfl, Memory.read_list (Memory.read_below hm (Nat.lt_succ_self a))]
      by_cases hx : x = a
      · rw [if_pos hx, if_pos hx]
      · rw [if_neg hx, if_neg hx, Memory.read, if_neg (Ne.symm hx)]
    · rw [if_neg (by omega), if_neg (by omega)]
      by_cases hb : b = x
      · rw [Memory.read, if_pos hb, if_neg (by omega), Memory.read, if_pos hb]
      · rw [Memory.read, if_neg hb, ih hm, Memory.read, if_neg hb]

/-- A read after a write: the byte written at its address, the byte before anywhere else. -/
theorem Memory.read_write {m : Memory} (hw : m.wf = true) (a : Nat) (v : Byte) (x : Nat) :
    (m.write a v).read x = if x = a then v else m.read x :=
  Memory.read_write_from hw a v x

theorem Memory.read_write_same {m : Memory} (hw : m.wf = true) (a : Nat) (v : Byte) : (m.write a v).read a = v := by
  simp [Memory.read_write hw]

theorem Memory.read_write_ne {m : Memory} (hw : m.wf = true) {a x : Nat} (v : Byte) (h : x ≠ a) :
    (m.write a v).read x = m.read x := by
  simp [Memory.read_write hw, h]

theorem Memory.wfFrom_write {m : Memory} {lo a : Nat} (hw : m.wfFrom lo = true) (hlo : lo ≤ a) (ha : a < 2 ^ 32) (v : Byte) :
    (m.write a v).wfFrom lo = true := by
  induction m generalizing lo with
  | nil => exact Memory.wfFrom_list rfl hlo ha v
  | cons c m ih =>
    obtain ⟨b, u⟩ := c
    have hw' := hw
    simp only [Memory.wfFrom, Bool.and_eq_true, decide_eq_true_eq] at hw
    obtain ⟨⟨⟨hb, hb32⟩, hu⟩, hm⟩ := hw
    unfold Memory.write
    rcases Nat.lt_trichotomy a b with hlt | heq | hgt
    · rw [if_pos hlt]
      refine Memory.wfFrom_list ?_ hlo ha v
      simp only [Memory.wfFrom, Bool.and_eq_true, decide_eq_true_eq]
      exact ⟨⟨⟨hlt, hb32⟩, hu⟩, hm⟩
    · subst heq
      rw [if_neg (Nat.lt_irrefl a), if_pos rfl]
      exact Memory.wfFrom_list hm hlo ha v
    · rw [if_neg (by omega), if_neg (by omega)]
      simp only [Memory.wfFrom, Bool.and_eq_true, decide_eq_true_eq]
      exact ⟨⟨⟨hb, hb32⟩, hu⟩, ih hm hgt⟩

/-- A write inside the address space keeps the canonical form. -/
theorem Memory.wf_write {m : Memory} (hw : m.wf = true) {a : Nat} (ha : a < 2 ^ 32) (v : Byte) : (m.write a v).wf = true :=
  Memory.wfFrom_write hw (Nat.zero_le a) ha v

/-- A canonical memory lists no address at or above 2^32. -/
theorem Memory.read_above {m : Memory} {lo x : Nat} (hw : m.wfFrom lo = true) (hx : 2 ^ 32 ≤ x) : m.read x = 0 := by
  induction m generalizing lo with
  | nil => rfl
  | cons c m ih =>
    simp only [Memory.wfFrom, Bool.and_eq_true, decide_eq_true_eq] at hw
    have hne : c.1 ≠ x := by omega
    simp only [Memory.read, hne, if_false]
    exact ih hw.2

/-- Two canonical memories that read alike everywhere are equal data. -/
theorem Memory.ext_read {m m' : Memory} {lo : Nat} (hw : m.wfFrom lo = true) (hw' : m'.wfFrom lo = true)
    (h : ∀ x, m.read x = m'.read x) : m = m' := by
  induction m generalizing m' lo with
  | nil =>
    cases m' with
    | nil => rfl
    | cons c' m' =>
      simp only [Memory.wfFrom, Bool.and_eq_true, decide_eq_true_eq] at hw'
      have := h c'.1
      simp only [Memory.read, if_true] at this
      exact absurd this.symm hw'.1.2
  | cons c m ih =>
    obtain ⟨b, u⟩ := c
    cases m' with
    | nil =>
      simp only [Memory.wfFrom, Bool.and_eq_true, decide_eq_true_eq] at hw
      have := h b
      simp only [Memory.read, if_true] at this
      exact absurd this hw.1.2
    | cons c' m' =>
      obtain ⟨b', u'⟩ := c'
      simp only [Memory.wfFrom, Bool.and_eq_true, decide_eq_true_eq] at hw hw'
      obtain ⟨⟨⟨-, -⟩, hu⟩, hm⟩ := hw
      obtain ⟨⟨⟨-, -⟩, hu'⟩, hm'⟩ := hw'
      have hb : b = b' := by
        rcases Nat.lt_trichotomy b b' with hlt | heq | hgt
        · have h1 := h b
          have hz := Memory.read_below hm' (x := b) (by omega)
          simp only [Memory.read, if_true, if_neg (Nat.ne_of_gt hlt), hz] at h1
          exact absurd h1 hu
        · exact heq
        · have h1 := h b'
          have hz := Memory.read_below hm (x := b') (by omega)
          simp only [Memory.read, if_true, if_neg (Nat.ne_of_gt hgt), hz] at h1
          exact absurd h1.symm hu'
      subst hb
      have hv : u = u' := by simpa [Memory.read] using h b
      subst hv
      congr 1
      refine ih hm hm' fun x => ?_
      by_cases hx : x < b + 1
      · rw [Memory.read_below hm hx, Memory.read_below hm' hx]
      · have := h x
        have hne : b ≠ x := by omega
        simpa [Memory.read, hne] using this

/-! ### Byte loops -/

@[simp] theorem forBytes_zero (f : Nat → Memory → Memory) (m : Memory) : forBytes 0 f m = m := rfl

theorem forBytes_succ (n : Nat) (f : Nat → Memory → Memory) (m : Memory) :
    forBytes (n + 1) f m = f n (forBytes n f m) := rfl

/-- A loop whose every turn keeps a property of memory keeps it. -/
theorem forBytes_keeps (P : Memory → Prop) (n : Nat) (f : Nat → Memory → Memory)
    (hf : ∀ i m, i < n → P m → P (f i m)) {m : Memory} (hm : P m) : P (forBytes n f m) := by
  induction n with
  | zero => exact hm
  | succ n ih => exact hf n _ (Nat.lt_succ_self n) (ih fun i m hi => hf i m (Nat.lt_succ_of_lt hi))

/-- The store loop inside the address space keeps the canonical form. -/
theorem storeBytes_wf {m : Memory} (hw : m.wf = true) {d n : Nat} (hd : d + n ≤ 2 ^ 32) (g : Memory → Nat → Byte) :
    (storeBytes d n g m).wf = true :=
  forBytes_keeps (fun m => m.wf = true) n _ (fun i m hi hm => Memory.wf_write hm (by omega) _) hw

/-- What the store loop leaves at every address, when the value stored at index `i` depends only on bytes the earlier turns have not
stored: that value in the buffer, and the byte before outside it. -/
theorem storeBytes_read {m : Memory} (hw : m.wf = true) {d n : Nat} (hd : d + n ≤ 2 ^ 32) (g : Memory → Nat → Byte)
    (hg : ∀ i, i < n → ∀ m' : Memory, (∀ x, (x < d ∨ d + i ≤ x) → m'.read x = m.read x) → g m' i = g m i) (x : Nat) :
    (storeBytes d n g m).read x = if d ≤ x ∧ x < d + n then g m (x - d) else m.read x := by
  induction n generalizing x with
  | zero =>
    rw [if_neg (by omega)]
    rfl
  | succ n ih =>
    have ih' := ih (by omega) fun i hi => hg i (by omega)
    have hkeep : ∀ y, (y < d ∨ d + n ≤ y) → (storeBytes d n g m).read y = m.read y := fun y hy => by
      rw [ih', if_neg (by omega)]
    have hval : g (storeBytes d n g m) n = g m n := hg n (by omega) _ hkeep
    change ((storeBytes d n g m).write (d + n) (g (storeBytes d n g m) n)).read x = _
    rw [Memory.read_write (storeBytes_wf hw (by omega) g), hval]
    by_cases hx : x = d + n
    · subst hx
      rw [if_pos rfl, if_pos (by omega)]
      congr 1; omega
    · rw [if_neg hx, ih']
      by_cases hin : d ≤ x ∧ x < d + n
      · rw [if_pos hin, if_pos (by omega)]
      · rw [if_neg hin, if_neg (by omega)]

/-- A host's run of bytes keeps the canonical form. -/
theorem Memory.writeList_wf {m : Memory} (hw : m.wf = true) {a : Nat} (vs : List Byte) (ha : a + vs.length ≤ 2 ^ 32) :
    (m.writeList a vs).wf = true := by
  induction vs generalizing m a with
  | nil => exact hw
  | cons v vs ih =>
    simp only [List.length_cons] at ha
    exact ih (Memory.wf_write hw (by omega) v) (by omega)

/-- What a host's run of bytes leaves at every address. -/
theorem Memory.read_writeList {m : Memory} (hw : m.wf = true) {a : Nat} (vs : List Byte) (ha : a + vs.length ≤ 2 ^ 32) (x : Nat) :
    (m.writeList a vs).read x = if a ≤ x ∧ x < a + vs.length then vs.getD (x - a) 0 else m.read x := by
  induction vs generalizing m a with
  | nil =>
    rw [if_neg (by simp)]
    rfl
  | cons v vs ih =>
    simp only [List.length_cons] at ha ⊢
    simp only [Memory.writeList]
    rw [ih (Memory.wf_write hw (by omega) v) (by omega), Memory.read_write hw]
    by_cases hx : x = a
    · subst hx
      rw [if_neg (by omega), if_pos rfl, if_pos (by omega)]
      simp
    · rw [if_neg hx]
      by_cases hin : a + 1 ≤ x ∧ x < a + 1 + vs.length
      · rw [if_pos hin, if_pos (by omega)]
        obtain ⟨k, hk⟩ : ∃ k, x - a = k + 1 := ⟨x - a - 1, by omega⟩
        have : x - (a + 1) = k := by omega
        rw [hk, this]; simp
      · rw [if_neg hin, if_neg (by omega)]

end Sys2Proof.Machine
end

