-- ==== Sys2Proof/Laws/State.lean ====
section
/-! SUPPORT. One lemma per field per update of State, so that no proof unfolds a record update. -/

namespace Sys2Proof.Machine

/-! ### `State.setRc` -/

@[simp] theorem State.setRc_params (s : State) (c : Byte) : (s.setRc c).params = s.params := rfl
@[simp] theorem State.setRc_rc (s : State) (c : Byte) : (s.setRc c).rc = c := rfl
@[simp] theorem State.setRc_regs (s : State) (c : Byte) : (s.setRc c).regs = s.regs := rfl
@[simp] theorem State.setRc_written (s : State) (c : Byte) : (s.setRc c).written = s.written := rfl
@[simp] theorem State.setRc_result (s : State) (c : Byte) : (s.setRc c).result = s.result := rfl
@[simp] theorem State.setRc_ctx (s : State) (c : Byte) : (s.setRc c).ctx = s.ctx := rfl
@[simp] theorem State.setRc_mem (s : State) (c : Byte) : (s.setRc c).mem = s.mem := rfl
@[simp] theorem State.setRc_pending (s : State) (c : Byte) : (s.setRc c).pending = s.pending := rfl
@[simp] theorem State.setRc_observed (s : State) (c : Byte) : (s.setRc c).observed = s.observed := rfl
@[simp] theorem State.setRc_resets (s : State) (c : Byte) : (s.setRc c).resets = s.resets := rfl

/-! ### `State.setResult` -/

@[simp] theorem State.setResult_params (s : State) (v : Word) : (s.setResult v).params = s.params := rfl
@[simp] theorem State.setResult_rc (s : State) (v : Word) : (s.setResult v).rc = s.rc := rfl
@[simp] theorem State.setResult_regs (s : State) (v : Word) : (s.setResult v).regs = s.regs := rfl
@[simp] theorem State.setResult_written (s : State) (v : Word) : (s.setResult v).written = s.written := rfl
@[simp] theorem State.setResult_result (s : State) (v : Word) : (s.setResult v).result = v := rfl
@[simp] theorem State.setResult_ctx (s : State) (v : Word) : (s.setResult v).ctx = s.ctx := rfl
@[simp] theorem State.setResult_mem (s : State) (v : Word) : (s.setResult v).mem = s.mem := rfl
@[simp] theorem State.setResult_pending (s : State) (v : Word) : (s.setResult v).pending = s.pending := rfl
@[simp] theorem State.setResult_observed (s : State) (v : Word) : (s.setResult v).observed = s.observed := rfl
@[simp] theorem State.setResult_resets (s : State) (v : Word) : (s.setResult v).resets = s.resets := rfl

/-! ### `State.setCtx` -/

@[simp] theorem State.setCtx_params (s : State) (c : FieldContext) : (s.setCtx c).params = s.params := rfl
@[simp] theorem State.setCtx_rc (s : State) (c : FieldContext) : (s.setCtx c).rc = s.rc := rfl
@[simp] theorem State.setCtx_regs (s : State) (c : FieldContext) : (s.setCtx c).regs = s.regs := rfl
@[simp] theorem State.setCtx_written (s : State) (c : FieldContext) : (s.setCtx c).written = s.written := rfl
@[simp] theorem State.setCtx_result (s : State) (c : FieldContext) : (s.setCtx c).result = s.result := rfl
@[simp] theorem State.setCtx_ctx (s : State) (c : FieldContext) : (s.setCtx c).ctx = c := rfl
@[simp] theorem State.setCtx_mem (s : State) (c : FieldContext) : (s.setCtx c).mem = s.mem := rfl
@[simp] theorem State.setCtx_pending (s : State) (c : FieldContext) : (s.setCtx c).pending = s.pending := rfl
@[simp] theorem State.setCtx_observed (s : State) (c : FieldContext) : (s.setCtx c).observed = s.observed := rfl
@[simp] theorem State.setCtx_resets (s : State) (c : FieldContext) : (s.setCtx c).resets = s.resets := rfl

/-! ### `State.setMem` -/

@[simp] theorem State.setMem_params (s : State) (m : Memory) : (s.setMem m).params = s.params := rfl
@[simp] theorem State.setMem_rc (s : State) (m : Memory) : (s.setMem m).rc = s.rc := rfl
@[simp] theorem State.setMem_regs (s : State) (m : Memory) : (s.setMem m).regs = s.regs := rfl
@[simp] theorem State.setMem_written (s : State) (m : Memory) : (s.setMem m).written = s.written := rfl
@[simp] theorem State.setMem_result (s : State) (m : Memory) : (s.setMem m).result = s.result := rfl
@[simp] theorem State.setMem_ctx (s : State) (m : Memory) : (s.setMem m).ctx = s.ctx := rfl
@[simp] theorem State.setMem_mem (s : State) (m : Memory) : (s.setMem m).mem = m := rfl
@[simp] theorem State.setMem_pending (s : State) (m : Memory) : (s.setMem m).pending = s.pending := rfl
@[simp] theorem State.setMem_observed (s : State) (m : Memory) : (s.setMem m).observed = s.observed := rfl
@[simp] theorem State.setMem_resets (s : State) (m : Memory) : (s.setMem m).resets = s.resets := rfl

/-! ### `State.writeReg` -/

@[simp] theorem State.writeReg_params (s : State) (r : OperandReg) (v : Word) : (s.writeReg r v).params = s.params := rfl
@[simp] theorem State.writeReg_rc (s : State) (r : OperandReg) (v : Word) : (s.writeReg r v).rc = s.rc := rfl
@[simp] theorem State.writeReg_regs (s : State) (r : OperandReg) (v : Word) : (s.writeReg r v).regs = s.regs.set r v := rfl
@[simp] theorem State.writeReg_written (s : State) (r : OperandReg) (v : Word) : (s.writeReg r v).written = s.written.set r true := rfl
@[simp] theorem State.writeReg_result (s : State) (r : OperandReg) (v : Word) : (s.writeReg r v).result = s.result := rfl
@[simp] theorem State.writeReg_ctx (s : State) (r : OperandReg) (v : Word) : (s.writeReg r v).ctx = s.ctx := rfl
@[simp] theorem State.writeReg_mem (s : State) (r : OperandReg) (v : Word) : (s.writeReg r v).mem = s.mem := rfl
@[simp] theorem State.writeReg_pending (s : State) (r : OperandReg) (v : Word) : (s.writeReg r v).pending = s.pending := rfl
@[simp] theorem State.writeReg_observed (s : State) (r : OperandReg) (v : Word) : (s.writeReg r v).observed = s.observed := rfl
@[simp] theorem State.writeReg_resets (s : State) (r : OperandReg) (v : Word) : (s.writeReg r v).resets = s.resets := rfl

/-! ### `State.setPending` -/

@[simp] theorem State.setPending_params (s : State) (p : List HostAction) : (s.setPending p).params = s.params := rfl
@[simp] theorem State.setPending_rc (s : State) (p : List HostAction) : (s.setPending p).rc = s.rc := rfl
@[simp] theorem State.setPending_regs (s : State) (p : List HostAction) : (s.setPending p).regs = s.regs := rfl
@[simp] theorem State.setPending_written (s : State) (p : List HostAction) : (s.setPending p).written = s.written := rfl
@[simp] theorem State.setPending_result (s : State) (p : List HostAction) : (s.setPending p).result = s.result := rfl
@[simp] theorem State.setPending_ctx (s : State) (p : List HostAction) : (s.setPending p).ctx = s.ctx := rfl
@[simp] theorem State.setPending_mem (s : State) (p : List HostAction) : (s.setPending p).mem = s.mem := rfl
@[simp] theorem State.setPending_pending (s : State) (p : List HostAction) : (s.setPending p).pending = p := rfl
@[simp] theorem State.setPending_observed (s : State) (p : List HostAction) : (s.setPending p).observed = s.observed := rfl
@[simp] theorem State.setPending_resets (s : State) (p : List HostAction) : (s.setPending p).resets = s.resets := rfl

/-! ### `State.observe` -/

@[simp] theorem State.observe_params (s : State) (v : Word) : (s.observe v).params = s.params := rfl
@[simp] theorem State.observe_rc (s : State) (v : Word) : (s.observe v).rc = s.rc := rfl
@[simp] theorem State.observe_regs (s : State) (v : Word) : (s.observe v).regs = s.regs := rfl
@[simp] theorem State.observe_written (s : State) (v : Word) : (s.observe v).written = s.written := rfl
@[simp] theorem State.observe_result (s : State) (v : Word) : (s.observe v).result = s.result := rfl
@[simp] theorem State.observe_ctx (s : State) (v : Word) : (s.observe v).ctx = s.ctx := rfl
@[simp] theorem State.observe_mem (s : State) (v : Word) : (s.observe v).mem = s.mem := rfl
@[simp] theorem State.observe_pending (s : State) (v : Word) : (s.observe v).pending = s.pending := rfl
@[simp] theorem State.observe_observed (s : State) (v : Word) : (s.observe v).observed = s.observed ++ [v] := rfl
@[simp] theorem State.observe_resets (s : State) (v : Word) : (s.observe v).resets = s.resets := rfl

/-! ### `State.complete` -/

@[simp] theorem State.complete_params (s : State) (c : ReturnCode) : (s.complete c).params = s.params := rfl
@[simp] theorem State.complete_rc (s : State) (c : ReturnCode) : (s.complete c).rc = rcValue c := rfl
@[simp] theorem State.complete_regs (s : State) (c : ReturnCode) : (s.complete c).regs = s.regs := rfl
@[simp] theorem State.complete_written (s : State) (c : ReturnCode) : (s.complete c).written = s.written := rfl
@[simp] theorem State.complete_result (s : State) (c : ReturnCode) : (s.complete c).result = s.result := rfl
@[simp] theorem State.complete_ctx (s : State) (c : ReturnCode) : (s.complete c).ctx = s.ctx := rfl
@[simp] theorem State.complete_mem (s : State) (c : ReturnCode) : (s.complete c).mem = s.mem := rfl
@[simp] theorem State.complete_pending (s : State) (c : ReturnCode) : (s.complete c).pending = s.pending := rfl
@[simp] theorem State.complete_observed (s : State) (c : ReturnCode) : (s.complete c).observed = s.observed := rfl
@[simp] theorem State.complete_resets (s : State) (c : ReturnCode) : (s.complete c).resets = s.resets := rfl

/-! ### `State.illegalCommand` -/

@[simp] theorem State.illegalCommand_params (s : State) : s.illegalCommand.params = s.params := rfl
@[simp] theorem State.illegalCommand_rc (s : State) : s.illegalCommand.rc = 0x03 := rfl
@[simp] theorem State.illegalCommand_regs (s : State) : s.illegalCommand.regs = s.regs := rfl
@[simp] theorem State.illegalCommand_written (s : State) : s.illegalCommand.written = s.written := rfl
@[simp] theorem State.illegalCommand_result (s : State) : s.illegalCommand.result = s.result := rfl
@[simp] theorem State.illegalCommand_ctx (s : State) : s.illegalCommand.ctx = s.ctx := rfl
@[simp] theorem State.illegalCommand_mem (s : State) : s.illegalCommand.mem = s.mem := rfl
@[simp] theorem State.illegalCommand_pending (s : State) : s.illegalCommand.pending = s.pending := rfl
@[simp] theorem State.illegalCommand_observed (s : State) : s.illegalCommand.observed = s.observed := rfl
@[simp] theorem State.illegalCommand_resets (s : State) : s.illegalCommand.resets = s.resets := rfl

/-! ### `State.resetBlock` -/

@[simp] theorem State.resetBlock_params (s : State) : s.resetBlock.params = s.params := rfl
@[simp] theorem State.resetBlock_rc (s : State) : s.resetBlock.rc = Config.resetRc (s.resets + 1) := rfl
@[simp] theorem State.resetBlock_regs (s : State) : s.resetBlock.regs = State.reset.regs := rfl
@[simp] theorem State.resetBlock_written (s : State) : s.resetBlock.written = State.reset.written := rfl
@[simp] theorem State.resetBlock_result (s : State) : s.resetBlock.result = Config.resetResult (s.resets + 1) := rfl
@[simp] theorem State.resetBlock_ctx (s : State) : s.resetBlock.ctx = FieldContext.unpopulated := rfl
@[simp] theorem State.resetBlock_mem (s : State) : s.resetBlock.mem = s.mem := rfl
@[simp] theorem State.resetBlock_pending (s : State) : s.resetBlock.pending = s.pending := rfl
@[simp] theorem State.resetBlock_observed (s : State) : s.resetBlock.observed = s.observed := rfl
@[simp] theorem State.resetBlock_resets (s : State) : s.resetBlock.resets = s.resets + 1 := rfl

/-! ### One value per operand register -/

@[simp] theorem PerReg.get_set_same {α : Type} (p : PerReg α) (r : OperandReg) (v : α) : (p.set r v).get r = v := by
  cases r <;> rfl

theorem PerReg.get_set_ne {α : Type} (p : PerReg α) {r q : OperandReg} (v : α) (h : q ≠ r) :
    (p.set r v).get q = p.get q := by
  cases r <;> cases q <;> first | rfl | exact absurd rfl h

@[simp] theorem PerReg.get_dst {α : Type} (p : PerReg α) : p.get .dst = p.dst := rfl
@[simp] theorem PerReg.get_a {α : Type} (p : PerReg α) : p.get .a = p.a := rfl
@[simp] theorem PerReg.get_b {α : Type} (p : PerReg α) : p.get .b = p.b := rfl
@[simp] theorem PerReg.get_len {α : Type} (p : PerReg α) : p.get .len = p.len := rfl
@[simp] theorem PerReg.get_arg {α : Type} (p : PerReg α) : p.get .arg = p.arg := rfl

/-! ### Two updates in a row -/

@[simp] theorem State.setPending_setPending (s : State) (p q : List HostAction) :
    (s.setPending p).setPending q = s.setPending q := rfl

@[simp] theorem State.setPending_self (s : State) : s.setPending s.pending = s := rfl

end Sys2Proof.Machine
end

