-- ==== Sys2Proof/Laws/Buffer.lean ====
section
/-! SUPPORT. The buffer commands' operands and loops: the checks in plain words, what each loop leaves at every address, and one lemma
that says everything `runBuffer` can do. -/

namespace Sys2Proof.Machine

/-! ### Operands -/

theorem State.firstUnwritten_eq_none {s : State} {rs : List OperandReg} :
    s.firstUnwritten rs = none ↔ AllWritten s rs := by
  simp [State.firstUnwritten, AllWritten]

theorem State.firstOutOfRange_eq_none {s : State} {rs : List OperandReg} {n : Nat} :
    s.firstOutOfRange rs n = none ↔ AllInRange s rs n := by
  simp [State.firstOutOfRange, AllInRange]

theorem inRange_iff {q : Params} {p n : Nat} :
    inRange q p n = true ↔ n = 0 ∨ (p + n ≤ 2 ^ 32 ∧ ∀ i, i < n → memAdmit q (p + i) = true) := by
  simp [inRange]

theorem overlaps_iff {p q n : Nat} : overlaps p q n = true ↔ 0 < n ∧ p < q + n ∧ q < p + n := by
  simp [overlaps, and_assoc]

theorem State.disjoint_iff {s : State} {p q : OperandReg} {n : Nat} (hn : 0 < n) :
    s.disjoint p q n = true ↔ s.addr p + n ≤ s.addr q ∨ s.addr q + n ≤ s.addr p := by
  have h := @overlaps_iff (s.addr p) (s.addr q) n
  unfold State.disjoint
  cases hov : overlaps (s.addr p) (s.addr q) n
  · have : ¬(0 < n ∧ s.addr p < s.addr q + n ∧ s.addr q < s.addr p + n) := fun hc => by
      rw [h.mpr hc] at hov; exact absurd hov (by decide)
    simp only [Bool.not_false, true_iff]
    omega
  · have := h.mp hov
    simp only [Bool.not_true, Bool.false_eq_true, false_iff]
    omega

theorem State.identicalOrDisjoint_iff {s : State} {p q : OperandReg} {n : Nat} (hn : 0 < n) :
    s.identicalOrDisjoint p q n = true ↔
      s.addr p = s.addr q ∨ s.addr p + n ≤ s.addr q ∨ s.addr q + n ≤ s.addr p := by
  have h := State.disjoint_iff (s := s) (p := p) (q := q) hn
  unfold State.disjoint at h
  unfold State.identicalOrDisjoint
  rw [Bool.or_eq_true, h, beq_iff_eq]

theorem State.addr_lt (s : State) (r : OperandReg) : s.addr r < 2 ^ 32 := (s.regs.get r).isLt

/-- An in-range buffer of length above 0 ends inside the address space. -/
theorem AllInRange.le {s : State} {rs : List OperandReg} {n : Nat} (h : AllInRange s rs n) (hn : 0 < n) {r : OperandReg}
    (hr : r ∈ rs) : s.addr r + n ≤ 2 ^ 32 := by
  rcases inRange_iff.mp (h r hr) with h0 | h1
  · omega
  · exact h1.1

/-! ### The loops -/

theorem addLoop_read {m : Memory} (hw : m.wf = true) {d a n : Nat} (hd : d + n ≤ 2 ^ 32) (h : d + n ≤ a ∨ a + n ≤ d) (x : Nat) :
    (addLoop d a n m).read x =
      if d ≤ x ∧ x < d + n then m.read x ^^^ m.read (a + (x - d)) else m.read x := by
  unfold addLoop
  rw [storeBytes_read hw hd]
  · by_cases hx : d ≤ x ∧ x < d + n
    · have : d + (x - d) = x := by omega
      rw [if_pos hx, if_pos hx, this]
    · rw [if_neg hx, if_neg hx]
  · intro i hi m' hm'
    rw [hm' (d + i) (by omega), hm' (a + i) (by omega)]

theorem add2Loop_read {m : Memory} (hw : m.wf = true) {d a b n : Nat} (hd : d + n ≤ 2 ^ 32)
    (ha : d = a ∨ d + n ≤ a ∨ a + n ≤ d) (hb : d = b ∨ d + n ≤ b ∨ b + n ≤ d) (x : Nat) :
    (add2Loop d a b n m).read x =
      if d ≤ x ∧ x < d + n then m.read x ^^^ m.read (a + (x - d)) ^^^ m.read (b + (x - d)) else m.read x := by
  unfold add2Loop
  rw [storeBytes_read hw hd]
  · by_cases hx : d ≤ x ∧ x < d + n
    · have : d + (x - d) = x := by omega
      rw [if_pos hx, if_pos hx, this]
    · rw [if_neg hx, if_neg hx]
  · intro i hi m' hm'
    rw [hm' (d + i) (by omega), hm' (a + i) (by omega), hm' (b + i) (by omega)]

theorem addsetLoop_read {m : Memory} (hw : m.wf = true) {d a b n : Nat} (hd : d + n ≤ 2 ^ 32)
    (ha : d + n ≤ a ∨ a + n ≤ d) (hb : d + n ≤ b ∨ b + n ≤ d) (x : Nat) :
    (addsetLoop d a b n m).read x =
      if d ≤ x ∧ x < d + n then m.read (a + (x - d)) ^^^ m.read (b + (x - d)) else m.read x := by
  unfold addsetLoop
  rw [storeBytes_read hw hd]
  intro i hi m' hm'
  rw [hm' (a + i) (by omega), hm' (b + i) (by omega)]

theorem muladdLoop_read {m : Memory} (hw : m.wf = true) (mul : Vector (Vector Byte 256) 256) (k : Byte) {d a n : Nat}
    (hd : d + n ≤ 2 ^ 32) (h : d + n ≤ a ∨ a + n ≤ d) (x : Nat) :
    (muladdLoop mul k d a n m).read x =
      if d ≤ x ∧ x < d + n ∧ k ≠ 0 then
        m.read x ^^^ (if k = 1 then m.read (a + (x - d)) else pairAt mul k (m.read (a + (x - d))))
      else m.read x := by
  unfold muladdLoop
  by_cases h0 : k = 0
  · rw [if_pos h0, if_neg (fun hc => hc.2.2 h0)]
  · rw [if_neg h0]
    by_cases h1 : k = 1
    · rw [if_pos h1, if_pos h1, addLoop_read hw hd h]
      by_cases hx : d ≤ x ∧ x < d + n
      · rw [if_pos hx, if_pos ⟨hx.1, hx.2, h0⟩]
      · rw [if_neg hx, if_neg (fun hc => hx ⟨hc.1, hc.2.1⟩)]
    · rw [if_neg h1, if_neg h1, storeBytes_read hw hd]
      · by_cases hx : d ≤ x ∧ x < d + n
        · have : d + (x - d) = x := by omega
          rw [if_pos hx, if_pos ⟨hx.1, hx.2, h0⟩, this]
        · rw [if_neg hx, if_neg (fun hc => hx ⟨hc.1, hc.2.1⟩)]
      · intro i hi m' hm'
        rw [hm' (d + i) (by omega), hm' (a + i) (by omega)]

theorem mulLoop_read {m : Memory} (hw : m.wf = true) (mul : Vector (Vector Byte 256) 256) (k : Byte) {d a n : Nat}
    (hd : d + n ≤ 2 ^ 32) (h : d + n ≤ a ∨ a + n ≤ d) (x : Nat) :
    (mulLoop mul k d a n m).read x =
      if d ≤ x ∧ x < d + n ∧ k ≠ 1 then (if k = 0 then 0 else pairAt mul k (m.read (a + (x - d)))) else m.read x := by
  unfold mulLoop
  by_cases h0 : k = 0
  · have h1 : k ≠ 1 := by rw [h0]; decide
    rw [if_pos h0, if_pos h0, storeBytes_read hw hd _ (fun _ _ _ _ => rfl)]
    by_cases hx : d ≤ x ∧ x < d + n
    · rw [if_pos hx, if_pos ⟨hx.1, hx.2, h1⟩]
    · rw [if_neg hx, if_neg (fun hc => hx ⟨hc.1, hc.2.1⟩)]
  · rw [if_neg h0, if_neg h0]
    by_cases h1 : k = 1
    · rw [if_pos h1, if_neg (fun hc => hc.2.2 h1)]
    · rw [if_neg h1, storeBytes_read hw hd]
      · by_cases hx : d ≤ x ∧ x < d + n
        · rw [if_pos hx, if_pos ⟨hx.1, hx.2, h1⟩]
        · rw [if_neg hx, if_neg (fun hc => hx ⟨hc.1, hc.2.1⟩)]
      · intro i hi m' hm'
        rw [hm' (a + i) (by omega)]

theorem swapLoop_wf {m : Memory} (hw : m.wf = true) {a b n : Nat} (ha : a + n ≤ 2 ^ 32) (hb : b + n ≤ 2 ^ 32) :
    (swapLoop a b n m).wf = true :=
  forBytes_keeps (fun m => m.wf = true) n _
    (fun _ _ hi hm => Memory.wf_write (Memory.wf_write hm (by omega) _) (by omega) _) hw

/-- What `SWAP`'s loop leaves at every address: each buffer holds the other's bytes. -/
theorem swapLoop_read {m : Memory} (hw : m.wf = true) {a b n : Nat} (ha : a + n ≤ 2 ^ 32) (hb : b + n ≤ 2 ^ 32)
    (h : a + n ≤ b ∨ b + n ≤ a) (x : Nat) :
    (swapLoop a b n m).read x =
      if a ≤ x ∧ x < a + n then m.read (b + (x - a))
      else if b ≤ x ∧ x < b + n then m.read (a + (x - b))
      else m.read x := by
  induction n generalizing x with
  | zero =>
    rw [if_neg (by omega), if_neg (by omega)]
    rfl
  | succ n ih =>
    have ih' := ih (by omega) (by omega) (by omega)
    have hwn : (swapLoop a b n m).wf = true := swapLoop_wf hw (by omega) (by omega)
    change (swapByte a b n (swapLoop a b n m)).read x = _
    unfold swapByte
    rw [Memory.read_write (Memory.wf_write hwn (by omega) _), Memory.read_write hwn, ih', ih', ih']
    rw [if_neg (by omega : ¬(a ≤ a + n ∧ a + n < a + n)), if_neg (by omega : ¬(b ≤ a + n ∧ a + n < b + n)),
      if_neg (by omega : ¬(a ≤ b + n ∧ b + n < a + n)), if_neg (by omega : ¬(b ≤ b + n ∧ b + n < b + n))]
    by_cases h1 : x = b + n
    · subst h1
      rw [if_pos rfl, if_neg (by omega), if_pos (by omega)]
      congr 1; omega
    · rw [if_neg h1]
      by_cases h2 : x = a + n
      · subst h2
        rw [if_pos rfl, if_pos (by omega)]
        congr 1; omega
      · rw [if_neg h2]
        by_cases h3 : a ≤ x ∧ x < a + n
        · rw [if_pos h3, if_pos (by omega)]
        · rw [if_neg h3, if_neg (by omega : ¬(a ≤ x ∧ x < a + (n + 1)))]
          by_cases h4 : b ≤ x ∧ x < b + n
          · rw [if_pos h4, if_pos (by omega)]
          · rw [if_neg h4, if_neg (by omega)]

theorem addLoop_wf {m : Memory} (hw : m.wf = true) {d n : Nat} (hd : d + n ≤ 2 ^ 32) (a : Nat) : (addLoop d a n m).wf = true :=
  storeBytes_wf hw hd _

theorem muladdLoop_wf {m : Memory} (hw : m.wf = true) (mul : Vector (Vector Byte 256) 256) (k : Byte) {d n : Nat}
    (hd : d + n ≤ 2 ^ 32) (a : Nat) : (muladdLoop mul k d a n m).wf = true := by
  unfold muladdLoop
  split_ifs
  · exact hw
  · exact addLoop_wf hw hd a
  · exact storeBytes_wf hw hd _

theorem mulLoop_wf {m : Memory} (hw : m.wf = true) (mul : Vector (Vector Byte 256) 256) (k : Byte) {d n : Nat}
    (hd : d + n ≤ 2 ^ 32) (a : Nat) : (mulLoop mul k d a n m).wf = true := by
  unfold mulLoop
  split_ifs
  · exact storeBytes_wf hw hd _
  · exact hw
  · exact storeBytes_wf hw hd _

/-! ### The common checks -/

section
variable (i : Instr) (bufs : List OperandReg) (mayAlias : State → Nat → Bool) (body : State → Nat → Memory → Memory) (s : State)

/-- A buffer command whose checks pass does its work on memory and sets `RC` (42 R170). -/
theorem runBuffer_ready {n : Nat} (h : BufferReady s bufs n) (ha : mayAlias s n = true) :
    runBuffer i bufs mayAlias body s = .next ((s.setMem (body s n s.mem)).complete .ok) := by
  obtain ⟨hw, hlen, hinit, hn, hpos, hr⟩ := h
  have h1 : s.firstUnwritten (bufs ++ [.len]) = none := State.firstUnwritten_eq_none.mpr fun r hr => by
    rcases List.mem_append.mp hr with h | h
    · exact hw r h
    · rw [List.mem_singleton.mp h]; exact hlen
  have h2 : s.firstOutOfRange bufs n = none := State.firstOutOfRange_eq_none.mpr hr
  have h3 : ¬((n : Int) < 0) := by omega
  have h4 : n ≠ 0 := by omega
  simp [runBuffer, h1, hinit, hn, h2, ha, h3, h4]

/-- With length 0 a buffer command only sets `RC` (42 R173). -/
theorem runBuffer_zero (hw : AllWritten s (bufs ++ [.len])) (hinit : s.ctx.initDone = true) (hn : s.length = 0) :
    runBuffer i bufs mayAlias body s = .next (s.complete .ok) := by
  have h1 : s.firstUnwritten (bufs ++ [.len]) = none := State.firstUnwritten_eq_none.mpr hw
  simp [runBuffer, h1, hinit, hn]

/-- Everything a buffer command can answer as a next state: nothing but `RC` (length 0), or its work on memory (42 R170). -/
theorem runBuffer_next {t : State} (h : runBuffer i bufs mayAlias body s = .next t) :
    (s.length = 0 ∧ t = s.complete .ok) ∨
    (∃ n, BufferReady s bufs n ∧ mayAlias s n = true ∧ t = (s.setMem (body s n s.mem)).complete .ok) := by
  cases hw : s.firstUnwritten (bufs ++ [.len]) with
  | some r => simp [runBuffer, hw] at h
  | none =>
    have hw' := State.firstUnwritten_eq_none.mp hw
    cases hr : s.firstOutOfRange bufs s.length.toNat with
    | some r =>
      simp only [runBuffer, hw, hr] at h
      split_ifs at h with hi hl hz
      injection h with h
      exact .inl ⟨by omega, h.symm⟩
    | none =>
      simp only [runBuffer, hw, hr] at h
      split_ifs at h with hi hl hz ha
      · injection h with h
        exact .inl ⟨by omega, h.symm⟩
      · injection h with h
        exact .inr ⟨s.length.toNat, ⟨fun r hr => hw' r (List.mem_append_left _ hr), hw' .len (by simp), by simpa using hi,
          by omega, by omega, State.firstOutOfRange_eq_none.mp hr⟩, by simpa using ha, h.symm⟩

/-- A buffer command never meets a refusal. -/
theorem runBuffer_not_refused (r : Refusal) : runBuffer i bufs mayAlias body s ≠ .refused r := by
  cases hw : s.firstUnwritten (bufs ++ [.len]) with
  | some u => simp [runBuffer, hw]
  | none =>
    cases hr : s.firstOutOfRange bufs s.length.toNat with
    | some u =>
      simp only [runBuffer, hw, hr]
      split_ifs <;> simp
    | none =>
      simp only [runBuffer, hw, hr]
      split_ifs <;> simp

end

end Sys2Proof.Machine
end

