-- ==== Sys2Proof/Laws/Decode.lean ====
section
/-! SUPPORT. The fields of an encoded word, one lemma per format and field, and the word under its format's mask. -/

namespace Sys2Proof

theorem fieldOp_encodeN (op : BitVec 5) : fieldOp (encodeN op) = op := by
  ext k hk
  simp only [fieldOp, encodeN]
  interval_cases k <;> simp

theorem fieldOp_encodeS (op : BitVec 5) (x : Byte) : fieldOp (encodeS op x) = op := by
  ext k hk
  simp only [fieldOp, encodeS]
  interval_cases k <;> simp

theorem fieldOp_encodeP (op : BitVec 5) (x y : Byte) : fieldOp (encodeP op x y) = op := by
  ext k hk
  simp only [fieldOp, encodeP]
  interval_cases k <;> simp

theorem fieldOp_encodeT (op : BitVec 5) (i : BitVec 10) : fieldOp (encodeT op i) = op := by
  ext k hk
  simp only [fieldOp, encodeT]
  interval_cases k <;> simp

theorem fieldX_encodeS (op : BitVec 5) (x : Byte) : fieldX (encodeS op x) = x := by
  ext k hk
  simp only [fieldX, encodeS]
  interval_cases k <;> simp

theorem fieldX_encodeP (op : BitVec 5) (x y : Byte) : fieldX (encodeP op x y) = x := by
  ext k hk
  simp only [fieldX, encodeP]
  interval_cases k <;> simp

theorem fieldY_encodeP (op : BitVec 5) (x y : Byte) : fieldY (encodeP op x y) = y := by
  ext k hk
  simp only [fieldY, encodeP]
  interval_cases k <;> simp

theorem fieldIdx_encodeT (op : BitVec 5) (i : BitVec 10) : fieldIdx (encodeT op i) = i := by
  ext k hk
  simp only [fieldIdx, encodeT]
  interval_cases k <;> simp

theorem encodeN_masked (op : BitVec 5) : encodeN op &&& formatMask .n = op.zeroExtend 32 := by
  ext k hk
  simp only [formatMask, encodeN]
  interval_cases k <;> simp

theorem encodeS_masked (op : BitVec 5) (x : Byte) : encodeS op x &&& formatMask .s = op.zeroExtend 32 := by
  ext k hk
  simp only [formatMask, encodeS]
  interval_cases k <;> simp

theorem encodeP_masked (op : BitVec 5) (x y : Byte) : encodeP op x y &&& formatMask .p = op.zeroExtend 32 := by
  ext k hk
  simp only [formatMask, encodeP]
  interval_cases k <;> simp

theorem encodeT_masked (op : BitVec 5) (i : BitVec 10) : encodeT op i &&& formatMask .t = op.zeroExtend 32 := by
  ext k hk
  simp only [formatMask, encodeT]
  interval_cases k <;> simp

end Sys2Proof
end

