-- ==== Sys2Proof/Laws/Tables.lean ====
section
/-! SUPPORT. Tables: entries of a tabulated vector, of the built tables, and of the unpopulated ones. -/

namespace Sys2Proof.Machine

@[simp] theorem tabulate_getElem {α : Type} {n : Nat} (f : Fin n → α) (i : Nat) (h : i < n) : (tabulate f)[i] = f ⟨i, h⟩ := by
  simp [tabulate]

@[simp] theorem byteIndex_val (x : Byte) : (byteIndex x).val = x.toNat := rfl

/-! ### The unpopulated tables read 0 everywhere (10 R35 to R39) -/

@[simp] theorem expAt_unpopulated (k : Nat) : expAt FieldContext.unpopulated.exp k = 0 := by
  simp [expAt, FieldContext.unpopulated]

@[simp] theorem logAt_unpopulated (x : Byte) : logAt FieldContext.unpopulated.log x = 0 := by
  simp [logAt, FieldContext.unpopulated]

@[simp] theorem mulAt_unpopulated (y x : Byte) : pairAt FieldContext.unpopulated.mul y x = 0 := by
  simp [pairAt, FieldContext.unpopulated]

@[simp] theorem divAt_unpopulated (y x : Byte) : pairAt FieldContext.unpopulated.div y x = 0 := by
  simp [pairAt, FieldContext.unpopulated]

@[simp] theorem invAt_unpopulated (x : Byte) : invAt FieldContext.unpopulated.inv x = 0 := by
  simp [invAt, FieldContext.unpopulated]

@[simp] theorem unpopulated_initDone : FieldContext.unpopulated.initDone = false := rfl
@[simp] theorem unpopulated_poly : FieldContext.unpopulated.poly = 0 := rfl

/-! ### The built context, field by field -/

section
variable (p : Params)

@[simp] theorem builtContext_initDone : (builtContext p).initDone = true := rfl
@[simp] theorem builtContext_poly : (builtContext p).poly = polyOf p := rfl
theorem builtContext_exp : (builtContext p).exp = (buildTables p).exp := rfl
theorem builtContext_log : (builtContext p).log = (buildTables p).log := rfl
theorem builtContext_mul : (builtContext p).mul = (buildTables p).mul := rfl
theorem builtContext_div : (builtContext p).div = (buildTables p).div := rfl
theorem builtContext_inv : (builtContext p).inv = (buildTables p).inv := rfl

@[simp] theorem buildTables_initDone : (buildTables p).initDone = false := rfl
@[simp] theorem buildTables_poly : (buildTables p).poly = polyOf p := rfl

/-- `EXP[k]` after the build (40 R105 to R109). -/
theorem expAt_built {k : Nat} (h : k < 1020) : expAt (buildTables p).exp k = expEntry (polyOf p) k := by
  simp [expAt, buildTables, h]

/-- `LOG[x]` after the build (40 R105 to R107). -/
theorem logAt_built (x : Byte) : logAt (buildTables p).log x = logEntry (polyOf p) p.logOfOne x.toNat := by
  simp [logAt, buildTables]

/-- `MUL[y][x]` after the build (40 R111). -/
theorem mulAt_built (y x : Byte) :
    pairAt (buildTables p).mul y x =
      if y = 0 ∨ x = 0 then 0
      else expAt (buildTables p).exp ((logAt (buildTables p).log x).toNat + (logAt (buildTables p).log y).toNat) := by
  have h : (y.toNat = 0 ∨ x.toNat = 0) ↔ (y = 0 ∨ x = 0) := by
    rw [BitVec.toNat_eq (x := y), BitVec.toNat_eq (x := x)]
    exact Iff.rfl
  simp only [pairAt, buildTables, logAt, mulEntry, byteIndex_val, Fin.getElem_fin, tabulate_getElem, h]

/-- `DIV[y][x]` after the build (40 R111). -/
theorem divAt_built (y x : Byte) :
    pairAt (buildTables p).div y x =
      if y = 0 ∨ x = 0 then 0
      else expAt (buildTables p).exp ((logAt (buildTables p).log x).toNat + (255 - (logAt (buildTables p).log y).toNat)) := by
  have h : (y.toNat = 0 ∨ x.toNat = 0) ↔ (y = 0 ∨ x = 0) := by
    rw [BitVec.toNat_eq (x := y), BitVec.toNat_eq (x := x)]
    exact Iff.rfl
  simp only [pairAt, buildTables, logAt, divEntry, byteIndex_val, Fin.getElem_fin, tabulate_getElem, h]

/-- `INV[x]` after the build is `DIV[x][1]` (40 R112). -/
theorem invAt_built (x : Byte) : invAt (buildTables p).inv x = pairAt (buildTables p).div x 1 := by
  simp only [invAt, pairAt, buildTables, byteIndex_val, Fin.getElem_fin, tabulate_getElem]
  rfl

end

end Sys2Proof.Machine
end

