-- ==== Sys2Proof/Laws/Exec.lean ====
section
/-! SUPPORT. Everything a command and a step can do, said once: the next states of `INIT`, of a lookup, of a buffer command, of a host access. -/

namespace Sys2Proof.Machine

/-! ### `INIT` -/

/-- Everything `INIT` can answer as a next state (40 R100). -/
theorem execInit_next {s t : State} (h : execInit s = .next t) :
    (s.regs.arg ≠ s.params.engineVersion ∧ t = s.complete .versionMismatch) ∨
    (s.regs.arg = s.params.engineVersion ∧ s.ctx.initDone = true ∧ t = s.complete .ok) ∨
    (s.regs.arg = s.params.engineVersion ∧ s.ctx.initDone = false ∧ s.params.hostLittleEndian = false ∧
      t = s.complete .unsupportedByteOrder) ∨
    (s.regs.arg = s.params.engineVersion ∧ s.ctx.initDone = false ∧ s.params.hostLittleEndian = true ∧
      catalogOk s.params = true ∧ t = (s.setCtx (builtContext s.params)).complete .ok) := by
  cases hw : s.firstUnwritten [.arg] with
  | some r => simp [execInit, hw] at h
  | none =>
    simp only [execInit, hw] at h
    split_ifs at h with h1 h2 h3 h4 <;> injection h with h
    · exact .inl ⟨h1, h.symm⟩
    · exact .inr (.inl ⟨not_not.mp h1, h2, h.symm⟩)
    · exact .inr (.inr (.inl ⟨not_not.mp h1, by simpa using h2, h3, h.symm⟩))
    · exact .inr (.inr (.inr ⟨not_not.mp h1, by simpa using h2, by simpa using h3, by simpa using h4, h.symm⟩))

/-- The only refusal of `INIT` (00 R12). -/
theorem execInit_refused {s : State} {r : Refusal} (h : execInit s = .refused r) :
    r = .invalidCatalog ∧ catalogOk s.params = false := by
  cases hw : s.firstUnwritten [.arg] with
  | some u => simp [execInit, hw] at h
  | none =>
    simp only [execInit, hw] at h
    split_ifs at h with h1 h2 h3 h4
    injection h with h
    exact ⟨h.symm, h4⟩

/-! ### Lookups -/

/-- What a lookup leaves (41 R140). -/
@[simp] theorem answer_eq (v : Word) (s : State) : answer v s = .next { s with result := v, rc := 0x00 } := rfl

/-! ### Issuing a command -/

theorem issue_ok {w : Word} {i : Instr} (h : decode w = .ok i) (s : State) : issue w s = exec i s := by
  simp [issue, h]

theorem issue_error {w : Word} {e : DecodeError} (h : decode w = .error e) (s : State) : issue w s = .next s.illegalCommand := by
  simp [issue, h]

/-- Everything a word written to `CMD` can lead to as a next state (10 R23, 30 R80). -/
theorem issue_next {w : Word} {s t : State} (h : issue w s = .next t) :
    (∃ i, decode w = .ok i ∧ exec i s = .next t) ∨ ((∃ e, decode w = .error e) ∧ t = s.illegalCommand) := by
  cases hd : decode w with
  | ok i => exact .inl ⟨i, rfl, by rwa [issue_ok hd] at h⟩
  | error e =>
    rw [issue_error hd] at h
    injection h with h
    exact .inr ⟨⟨e, rfl⟩, h.symm⟩

/-! ### Host accesses and the step -/

theorem accessOk_iff {offset : Nat} {width : AccessWidth} :
    accessOk offset width = true ↔ width = .word ∧ offset % 4 = 0 ∧ offset < 0x40 := by
  cases width
  simp [accessOk, and_assoc]

/-- The register map sends offset 0 alone to `CMD` (10 R22). -/
theorem hostReg_eq_cmd {offset : Nat} : hostReg offset = .cmd ↔ offset = 0 := by
  constructor
  · intro h
    unfold hostReg at h
    split at h <;> first | rfl | cases h
  · rintro rfl
    rfl

/-- Everything a host write can lead to as a next state: a command, a written operand register, or nothing. -/
theorem hostWrite_next {offset : Nat} {width : AccessWidth} {v : Word} {s t : State}
    (h : hostWrite offset width v s = .next t) :
    (offset = 0 ∧ width = .word ∧ issue v s = .next t) ∨ (∃ r, hostReg offset = .operand r ∧ t = s.writeReg r v) ∨ t = s := by
  cases hok : accessOk offset width with
  | false => simp [hostWrite, hok] at h
  | true =>
    simp only [hostWrite, hok] at h
    cases hr : hostReg offset with
    | cmd =>
      rw [hr] at h
      exact .inl ⟨hostReg_eq_cmd.mp hr, (accessOk_iff.mp hok).1, h⟩
    | operand r =>
      rw [hr] at h
      injection h with h
      exact .inr (.inl ⟨r, rfl, h.symm⟩)
    | _ =>
      rw [hr] at h
      injection h with h
      exact .inr (.inr h.symm)

/-- A host read changes nothing but the observations. -/
theorem hostRead_next {offset : Nat} {width : AccessWidth} {s t : State} (h : hostRead offset width s = .next t) :
    ∃ v, t = s.observe v := by
  cases hok : accessOk offset width with
  | false => simp [hostRead, hok] at h
  | true =>
    simp only [hostRead, hok] at h
    cases hr : hostReg offset with
    | operand r =>
      rw [hr] at h
      cases hu : s.firstUnwritten [r] with
      | some u => simp [hu] at h
      | none =>
        simp only [hu] at h
        injection h with h
        exact ⟨_, h.symm⟩
    | _ =>
      rw [hr] at h
      injection h with h
      exact ⟨_, h.symm⟩

/-- A host's `MEM` that is answered writes its bytes, inside the address space. -/
theorem hostMem_next {addr : Word} {bytes : List Byte} {s t : State} (h : hostMem addr bytes s = .next t) :
    inRange s.params addr.toNat bytes.length = true ∧ t = s.setMem (s.mem.writeList addr.toNat bytes) := by
  unfold hostMem at h
  split_ifs at h with hr
  injection h with h
  exact ⟨by simpa using hr, h.symm⟩

/-- A step takes the oldest pending access (10 R20). -/
theorem step_cons {s : State} {a : HostAction} {rest : List HostAction} (h : s.pending = a :: rest) :
    step s = perform a (s.setPending rest) := by
  simp [step, advance, h]

theorem step_nil {s : State} (h : s.pending = []) : step s = .next s := by
  simp [step, advance, h]

/-- Everything a step can do that answers a next state. `u` is the state with the access taken from the queue. -/
theorem step_next {s t : State} (h : step s = .next t) :
    (s.pending = [] ∧ t = s) ∨
    ∃ rest, ∃ u, u = s.setPending rest ∧
      ((∃ w i, s.pending = .write 0x00 .word w :: rest ∧ decode w = .ok i ∧ exec i u = .next t) ∨
       (∃ w e, s.pending = .write 0x00 .word w :: rest ∧ decode w = .error e ∧ t = u.illegalCommand) ∨
       (∃ offset width v r, s.pending = .write offset width v :: rest ∧ t = u.writeReg r v) ∨
       (∃ offset width v, s.pending = .write offset width v :: rest ∧ t = u) ∨
       (∃ offset width v, s.pending = .read offset width :: rest ∧ t = u.observe v) ∨
       (∃ addr bytes, s.pending = .mem addr bytes :: rest ∧ inRange s.params addr.toNat bytes.length = true ∧
         t = u.setMem (u.mem.writeList addr.toNat bytes)) ∨
       (s.pending = .reset :: rest ∧ t = u.resetBlock)) := by
  cases hp : s.pending with
  | nil =>
    rw [step_nil hp] at h
    injection h with h
    exact .inl ⟨rfl, h.symm⟩
  | cons a rest =>
    rw [step_cons hp] at h
    refine .inr ⟨rest, _, rfl, ?_⟩
    cases a with
    | write offset width v =>
      rcases hostWrite_next h with ⟨rfl, rfl, hi⟩ | ⟨r, -, ht⟩ | ht
      · rcases issue_next hi with ⟨i, hd, he⟩ | ⟨⟨e, hd⟩, ht⟩
        · exact .inl ⟨v, i, rfl, hd, he⟩
        · exact .inr (.inl ⟨v, e, rfl, hd, ht⟩)
      · exact .inr (.inr (.inl ⟨offset, width, v, r, rfl, ht⟩))
      · exact .inr (.inr (.inr (.inl ⟨offset, width, v, rfl, ht⟩)))
    | read offset width =>
      obtain ⟨v, ht⟩ := hostRead_next h
      exact .inr (.inr (.inr (.inr (.inl ⟨offset, width, v, rfl, ht⟩))))
    | mem addr bytes =>
      obtain ⟨hr, ht⟩ := hostMem_next h
      exact .inr (.inr (.inr (.inr (.inr (.inl ⟨addr, bytes, rfl, hr, ht⟩)))))
    | reset =>
      injection h with h
      exact .inr (.inr (.inr (.inr (.inr (.inr ⟨rfl, h.symm⟩)))))

/-- Everything a command can answer as a next state, by its kind. -/
theorem exec_next {i : Instr} {s t : State} (h : exec i s = .next t) :
    (i = .init ∧ execInit s = .next t) ∨
    (isBuffer i = true ∧ ∃ m, t = (s.setMem m).complete .ok) ∨
    (isLookup i = true ∧ ((∃ v, t = (s.setResult v).complete .ok) ∨ t = s.illegalCommand)) := by
  have buffer : ∀ {j bufs al body}, runBuffer j bufs al body s = .next t → ∃ m, t = (s.setMem m).complete .ok := fun hb => by
    rcases runBuffer_next _ _ _ _ _ hb with ⟨-, ht⟩ | ⟨n, -, -, ht⟩
    · exact ⟨s.mem, ht⟩
    · exact ⟨_, ht⟩
  have lookup : ∀ {v}, answer v s = .next t → ∃ v, t = (s.setResult v).complete .ok := fun ha => by
    injection ha with ha
    exact ⟨_, ha.symm⟩
  cases i with
  | init => exact .inl ⟨rfl, h⟩
  | add =>
    unfold exec execAdd at h
    exact .inr (.inl ⟨rfl, buffer h⟩)
  | add2 =>
    unfold exec execAdd2 at h
    exact .inr (.inl ⟨rfl, buffer h⟩)
  | addset =>
    unfold exec execAddset at h
    exact .inr (.inl ⟨rfl, buffer h⟩)
  | muladd k =>
    unfold exec execMuladd at h
    exact .inr (.inl ⟨rfl, buffer h⟩)
  | mul k =>
    unfold exec execMul at h
    exact .inr (.inl ⟨rfl, buffer h⟩)
  | swap =>
    unfold exec execSwap at h
    exact .inr (.inl ⟨rfl, buffer h⟩)
  | gfadd x y => exact .inr (.inr ⟨rfl, .inl (lookup h)⟩)
  | gfmul x y => exact .inr (.inr ⟨rfl, .inl (lookup h)⟩)
  | gfdiv x y => exact .inr (.inr ⟨rfl, .inl (lookup h)⟩)
  | gfinv x => exact .inr (.inr ⟨rfl, .inl (lookup h)⟩)
  | logrd x => exact .inr (.inr ⟨rfl, .inl (lookup h)⟩)
  | exprd k =>
    change execExprd k s = .next t at h
    unfold execExprd at h
    split_ifs at h
    · exact .inr (.inr ⟨rfl, .inl (lookup h)⟩)
    · injection h with h
      exact .inr (.inr ⟨rfl, .inr h.symm⟩)

end Sys2Proof.Machine
end

