-- ==== Sys2Proof/Laws/PerInstr.lean ====
section
/-! SUPPORT. Statements for all commands, one lemma per constructor. -/

namespace Sys2Proof.Laws.EncodingMatchesRow

/-- The command word of a command, under the mask of its row in the opcode table, is the row's match value (30 R78, R79). -/
def Statement (i : Instr) : Prop := encode i &&& rowMask i = rowMatch i

theorem init : Statement .init := encodeN_masked 0x01
theorem add : Statement .add := encodeN_masked 0x02
theorem add2 : Statement .add2 := encodeN_masked 0x03
theorem addset : Statement .addset := encodeN_masked 0x04
theorem muladd (s : Byte) : Statement (.muladd s) := encodeS_masked 0x05 s
theorem mul (s : Byte) : Statement (.mul s) := encodeS_masked 0x06 s
theorem swap : Statement .swap := encodeN_masked 0x07
theorem gfadd (x y : Byte) : Statement (.gfadd x y) := encodeP_masked 0x08 x y
theorem gfmul (x y : Byte) : Statement (.gfmul x y) := encodeP_masked 0x09 x y
theorem gfdiv (x y : Byte) : Statement (.gfdiv x y) := encodeP_masked 0x0A x y
theorem gfinv (x : Byte) : Statement (.gfinv x) := encodeS_masked 0x0B x
theorem exprd (idx : BitVec 10) : Statement (.exprd idx) := encodeT_masked 0x0C idx
theorem logrd (x : Byte) : Statement (.logrd x) := encodeS_masked 0x0D x

end Sys2Proof.Laws.EncodingMatchesRow
end

