-- ==== Sys2Proof/Tests/Slice0.lean ====
section
/-! SUPPORT. Tests: expected results are the vectors of 95_test_vectors.md (named in each comment) or the encodings of 30_encoding.md; and for
every statement with hypotheses a witness that meets them. -/

-- One theorem at a time: each `decide +kernel` waits in a thread of its own, and many at once exhaust the memory limit.
set_option Elab.async false

namespace Sys2Proof.Tests

open Sys2Proof.Machine

/-! ### Helpers -/

/-- P3 = 42 and every address admitted, the other parameters at their given values (`POLY` = 0x14D). -/
def params : Params := { Params.given with engineVersion := 42, memMap := [⟨0, 2 ^ 32⟩] }

/-- Just after reset. -/
def fresh : State := { State.reset with params := params }

/-- Every operand register written, `INIT` not yet done. -/
def written (d a b n : Word) : State :=
  { fresh with regs := ⟨d, a, b, n, 42⟩, written := ⟨true, true, true, true, true⟩ }

/-- The same after a successful `INIT`, with buffer memory `m`. -/
def ready (d a b n : Word) (m : Memory) : State := { written d a b n with ctx := builtContext params, mem := m }

/-- `s` with `a` its one pending access. -/
def about (a : HostAction) (s : State) : State := { s with pending := [a] }

def nextIs (r : Result) (f : State → Bool) : Bool :=
  match r with
  | .next t => f t
  | .fault _ => false
  | .refused _ => false

def faultIs (r : Result) (f : Fault) : Bool :=
  match r with
  | .next _ => false
  | .fault g => g == f
  | .refused _ => false

def refusalIs (r : Result) (f : Refusal) : Bool :=
  match r with
  | .next _ => false
  | .fault _ => false
  | .refused g => g == f

/-! ### Well-formedness -/

theorem test_wf_refuses_exp_index_1020 : (Instr.exprd 1020).wf = false := by decide
theorem test_wf_accepts_exp_index_1019 : (Instr.exprd 1019).wf = true := by decide

/-! ### Decoding: 95 V-B2, 30 R85 -/

theorem test_decode_format_n :
    decode 0x00000001 = .ok .init ∧ decode 0x00000002 = .ok .add ∧ decode 0x00000003 = .ok .add2 ∧
    decode 0x00000004 = .ok .addset ∧ decode 0x00000007 = .ok .swap := by decide

theorem test_decode_format_s :
    decode 0x00000205 = .ok (.muladd 0x02) ∧ decode 0x0000FF06 = .ok (.mul 0xFF) ∧
    decode 0x0000020B = .ok (.gfinv 0x02) ∧ decode 0x0000530D = .ok (.logrd 0x53) := by decide

theorem test_decode_format_p :
    decode 0x00CA5308 = .ok (.gfadd 0x53 0xCA) ∧ decode 0x00025309 = .ok (.gfmul 0x53 0x02) ∧
    decode 0x0002010A = .ok (.gfdiv 0x01 0x02) := by decide

theorem test_decode_format_t : decode 0x0001FE0C = .ok (.exprd 510) ∧ decode 0x0003FB0C = .ok (.exprd 1019) := by decide

theorem test_decode_illegal :
    decode 0x00000000 = .error .reservedOpcode ∧ decode 0x0000000E = .error .reservedOpcode ∧
    decode 0x0000001F = .error .reservedOpcode ∧ decode 0x00000021 = .error .reservedBits ∧
    decode 0x80000002 = .error .reservedBits ∧ decode 0x00000102 = .error .reservedBits ∧
    decode 0x00010005 = .error .reservedBits ∧ decode 0x01CA5308 = .error .reservedBits ∧
    decode 0x0003FC0C = .error .expIndex ∧ decode 0x0004000C = .error .reservedBits := by decide

theorem test_encode_example_words :
    encode (.mul 0xFF) = 0x0000FF06 ∧ encode (.gfadd 0x53 0xCA) = 0x00CA5308 ∧ encode (.exprd 510) = 0x0001FE0C := by decide

theorem test_decodeTableWord : decodeTableWord 32 0x0002010A = some (.gfdiv 0x01 0x02) ∧ decodeTableWord 32 0x0003FC0C = none := by decide

/-! ### The parameters -/

/-- 00 R12, 93 G1: the default catalog is primitive throughout. -/
theorem test_catalogOk : catalogOk params = true := by decide +kernel

/-- 40 R104, 95 V-B1: the given parameters select 0x14D, and an index of 16 or -1 selects entry 0, 0x11D. -/
theorem test_polyOf :
    polyOf params = 0x14D ∧ polyOf { params with defaultPolyIndex := 16 } = 0x11D ∧
    polyOf { params with defaultPolyIndex := -1 } = 0x11D := by decide +kernel

/-! ### `INIT`: 95 V-B1 rows 1 and 3 -/

theorem test_init_builds :
    nextIs (exec .init (written 0 0 0 0)) (fun t => t.rc == 0x00 && t.ctx.initDone && t.ctx.poly == 0x14D) = true := by
  decide +kernel

theorem test_init_wrong_version :
    nextIs (exec .init { written 0 0 0 0 with params := { params with engineVersion := 43 } })
      (fun t => t.rc == 0x01 && !t.ctx.initDone) = true := by decide +kernel

/-! ### Lookups: 95 V-B3 to V-B9 -/

theorem test_gfadd : nextIs (exec (.gfadd 0x53 0xCA) fresh) (fun t => t.result == 0x99 && t.rc == 0x00) = true := by
  decide +kernel

theorem test_gfmul : nextIs (exec (.gfmul 0xCA 0x53) (ready 0 0 0 0 [])) (fun t => t.result == 0x94) = true := by decide +kernel

theorem test_gfmul_before_init : nextIs (exec (.gfmul 0x53 0x02) fresh) (fun t => t.result == 0x00) = true := by decide +kernel

theorem test_gfdiv : nextIs (exec (.gfdiv 0x43 0x83) (ready 0 0 0 0 [])) (fun t => t.result == 0x57) = true := by decide +kernel

theorem test_gfdiv_by_zero : nextIs (exec (.gfdiv 0x07 0x00) (ready 0 0 0 0 [])) (fun t => t.result == 0x00) = true := by
  decide +kernel

theorem test_gfinv : nextIs (exec (.gfinv 0x53) (ready 0 0 0 0 [])) (fun t => t.result == 0x04) = true := by decide +kernel

theorem test_gfinv_zero : nextIs (exec (.gfinv 0x00) (ready 0 0 0 0 [])) (fun t => t.result == 0x00) = true := by decide +kernel

theorem test_exprd : nextIs (exec (.exprd 509) (ready 0 0 0 0 [])) (fun t => t.result == 0xA6) = true := by decide +kernel

theorem test_exprd_past_sentinel : nextIs (exec (.exprd 511) (ready 0 0 0 0 [])) (fun t => t.result == 0x00) = true := by
  decide +kernel

theorem test_logrd : nextIs (exec (.logrd 0x8E) (ready 0 0 0 0 [])) (fun t => t.result == 103) = true := by decide +kernel

theorem test_logrd_zero : nextIs (exec (.logrd 0x00) (ready 0 0 0 0 [])) (fun t => t.result == 0x200) = true := by decide +kernel

/-! ### Buffer commands: 95 V-B10 to V-B13 -/

theorem test_add :
    nextIs (exec .add (ready 0x1000 0x2000 0 2 [(0x1000, 0x0F), (0x1001, 0xAA), (0x2000, 0xF0), (0x2001, 0xAA)]))
      (fun t => t.mem == [(0x1000, 0xFF), (0x2000, 0xF0), (0x2001, 0xAA)] && t.rc == 0x00) = true := by decide +kernel

theorem test_add2_dst_is_a :
    nextIs (exec .add2 (ready 0x1000 0x1000 0x2000 2 [(0x1000, 0x12), (0x1001, 0x34), (0x2000, 0x56), (0x2001, 0x78)]))
      (fun t => t.mem == [(0x1000, 0x56), (0x1001, 0x78), (0x2000, 0x56), (0x2001, 0x78)]) = true := by decide +kernel

theorem test_addset :
    nextIs (exec .addset (ready 0x3000 0x1000 0x2000 2
        [(0x1000, 0x0F), (0x1001, 0x53), (0x2000, 0xF0), (0x2001, 0x53), (0x3000, 0x77), (0x3001, 0x77)]))
      (fun t => t.mem == [(0x1000, 0x0F), (0x1001, 0x53), (0x2000, 0xF0), (0x2001, 0x53), (0x3000, 0xFF)]) = true := by
  decide +kernel

theorem test_muladd :
    nextIs (exec (.muladd 0xFF) (ready 0x1000 0x2000 0 2 [(0x1000, 0x01), (0x1001, 0x02), (0x2000, 0x53), (0x2001, 0x80)]))
      (fun t => t.mem == [(0x1000, 0xCB), (0x1001, 0x56), (0x2000, 0x53), (0x2001, 0x80)]) = true := by decide +kernel

theorem test_mul :
    nextIs (exec (.mul 0x53) (ready 0x1000 0x2000 0 2 [(0x1000, 0xEE), (0x1001, 0xEE), (0x2000, 0x53), (0x2001, 0x80)]))
      (fun t => t.mem == [(0x1000, 0xE1), (0x1001, 0x20), (0x2000, 0x53), (0x2001, 0x80)]) = true := by decide +kernel

theorem test_mul_by_one_copies_nothing :
    nextIs (exec (.mul 0x01) (ready 0x1000 0x2000 0 1 [(0x1000, 0xEE), (0x2000, 0x53)]))
      (fun t => t.mem == [(0x1000, 0xEE), (0x2000, 0x53)] && t.rc == 0x00) = true := by decide +kernel

theorem test_swap :
    nextIs (exec .swap (ready 0 0x1000 0x2000 2 [(0x1000, 0x01), (0x1001, 0x02), (0x2000, 0x03), (0x2001, 0x04)]))
      (fun t => t.mem == [(0x1000, 0x03), (0x1001, 0x04), (0x2000, 0x01), (0x2001, 0x02)]) = true := by decide +kernel

/-! ### Check order and aliasing: 95 V-B15 rows 1, 2, 4 to 10 and V-B16 -/

theorem test_unwritten_len_before_pre_init :
    faultIs (exec .add { fresh with written := ⟨true, true, false, false, false⟩ })
      (.unwrittenOperand (.command 0x00000002) .len) = true := by decide +kernel

theorem test_pre_init : faultIs (exec .add (written 0x1000 0x2000 0 4)) (.preInit 0x00000002) = true := by decide +kernel

theorem test_negative_length :
    faultIs (exec .add (ready 0x1000 0x2000 0 0xFFFFFFFF [])) (.negativeLength 0x00000002 0xFFFFFFFF) = true := by decide +kernel

theorem test_zero_length_checks_nothing :
    nextIs (exec .add (ready 0xFFFFFFFF 0xFFFFFFFF 0 0 [])) (fun t => t.rc == 0x00) = true := by decide +kernel

theorem test_range_at_the_top :
    faultIs (exec .add (ready 0xFFFFFFFE 0x2000 0 4 [])) (.range 0x00000002 .dst) = true ∧
    nextIs (exec .add (ready 0xFFFFFFFC 0x2000 0 4 [])) (fun t => t.rc == 0x00) = true ∧
    faultIs (exec (.muladd 0) (ready 0x1000 0xFFFFFFFE 0 4 [])) (.range 0x00000005 .a) = true := by decide +kernel

theorem test_aliasing :
    faultIs (exec .add (ready 0x1000 0x1002 0 4 [])) (.aliasing 0x00000002) = true ∧
    nextIs (exec .add (ready 0x1000 0x1004 0 4 [])) (fun t => t.rc == 0x00) = true ∧
    faultIs (exec .add2 (ready 0x1000 0x1001 0x2000 4 [])) (.aliasing 0x00000003) = true ∧
    faultIs (exec .swap (ready 0 0x1000 0x1003 4 [])) (.aliasing 0x00000007) = true := by decide +kernel

/-! ### The register window: 95 V-B17 -/

theorem test_status_after_illegal_word :
    nextIs (step (about (.write 0 .word 0x0000000E) (ready 0 0 0 0 []))) (fun t => t.statusWord == 0x00000301) = true := by
  decide +kernel

theorem test_read_reserved : nextIs (step (about (.read 0x28 .word) fresh)) (fun t => t.observed == [0]) = true := by decide +kernel

theorem test_read_polyreg :
    nextIs (step (about (.read 0x20 .word) (ready 0 0 0 0 []))) (fun t => t.observed == [0x14D]) = true := by decide +kernel

theorem test_bad_register_access :
    faultIs (step (about (.read 0x04 .byte) fresh)) (.badRegisterAccess 0x04 .byte) = true ∧
    faultIs (step (about (.read 0x06 .word) fresh)) (.badRegisterAccess 0x06 .word) = true ∧
    faultIs (step (about (.read 0x40 .word) fresh)) (.badRegisterAccess 0x40 .word) = true ∧
    faultIs (step (about (.write 0x08 ⟨64⟩ 0) fresh)) (.badRegisterAccess 0x08 ⟨64⟩) = true ∧
    faultIs (step (about (.read 0x08 ⟨24⟩) fresh)) (.badRegisterAccess 0x08 ⟨24⟩) = true := by decide +kernel

theorem test_read_unwritten :
    faultIs (step (about (.read 0x08 .word) fresh)) (.unwrittenOperand (.access 0x08) .dst) = true := by decide +kernel

theorem test_write_len :
    nextIs (step (about (.write 0x14 .word 0xDEADBEEF) fresh)) (fun t => t.regs.len == 0xDEADBEEF && t.written.len) = true := by
  decide +kernel

theorem test_withFetchWord_runs :
    nextIs (step (State.reset.withFetchWord 32 0x00CA5308)) (fun t => t.result == 0x99) = true := by decide +kernel

theorem test_host_mem :
    nextIs (step (about (.mem 0x1000 [0x00, 0x53]) fresh)) (fun t => t.mem == [(0x1001, 0x53)]) = true := by decide +kernel

/-! ### Witnesses: for each statement with hypotheses, values that meet them all -/

theorem ready_inv (d a b n : Word) : Inv (ready d a b n []) := ⟨rfl, .inr ⟨test_catalogOk, rfl⟩⟩

/-- Two adjacent buffers of two bytes each, the second at the very top of the address space, and a third elsewhere. -/
def three : State := ready 0xFFFFFFFC 0xFFFFFFFE 0x1000 2 []

theorem three_inv : Inv three := ready_inv _ _ _ _

theorem witness_DecodeOfEncode : (Instr.exprd 1019).wf = true ∧ (Instr.gfadd 0xFF 0xFF).wf = true := by decide

theorem witness_EncodeOfDecode : decode 0x0003FB0C = .ok (.exprd 1019) := by decide

theorem witness_IllegalWord :
    IllegalWord 0x00000000 ∧ IllegalWord 0x0000000E ∧ IllegalWord 0x00000021 ∧ IllegalWord 0x00010005 ∧
    IllegalWord 0x01CA5308 ∧ IllegalWord 0x0003FC0C ∧ IllegalWord 0x0004000C ∧ ¬IllegalWord 0x0003FB0C ∧
    ¬IllegalWord 0x0000000D := by
  refine ⟨?_, ?_, ?_, ?_, ?_, ?_, ?_, ?_, ?_⟩ <;> decide

theorem witness_StepRunsDecodedCommand :
    (about (.write 0x00 .word 0x00CA5308) fresh).pending = .write 0x00 .word 0x00CA5308 :: [] ∧
    decode 0x00CA5308 = .ok (.gfadd 0x53 0xCA) ∧ (about (.read 0x00 .word) fresh).pending = .read 0x00 .word :: [] :=
  ⟨rfl, by decide, rfl⟩

theorem witness_IdleBlock : fresh.pending = [] := rfl

theorem witness_register_reads (offset : Nat) (width : AccessWidth) :
    (about (.read offset width) fresh).pending = .read offset width :: [] := rfl

theorem witness_register_writes (offset : Nat) (width : AccessWidth) (v : Word) :
    (about (.write offset width v) fresh).pending = .write offset width v :: [] := rfl

theorem witness_ReadOnlyRegisterReads_offsets :
    (0x28 ≤ 0x28 ∧ 0x28 ≤ 0x3C ∧ 0x28 % 4 = 0) ∧ (0x28 ≤ 0x3C ∧ 0x3C ≤ 0x3C ∧ 0x3C % 4 = 0) := by decide

theorem witness_OperandRegisterWriteThenRead :
    (0x18, OperandReg.arg) ∈ [(0x08, OperandReg.dst), (0x0C, .a), (0x10, .b), (0x14, .len), (0x18, .arg)] ∧
    ({ fresh with pending := [.write 0x18 .word 7, .read 0x18 .word] } : State).pending =
      .write 0x18 .word 7 :: .read 0x18 .word :: [] := ⟨by decide, rfl⟩

theorem witness_UnwrittenOperandFaults :
    (about .reset fresh).pending = .reset :: [] ∧ (∃ r ∈ readRegisters .init, fresh.written.get r = false) ∧
    fresh.written.get .dst = false := ⟨rfl, by decide, rfl⟩

theorem witness_HostMemWritesBytes :
    (about (.mem 0xFFFFFFFE [1, 2]) fresh).pending = .mem 0xFFFFFFFE [1, 2] :: [] ∧ fresh.mem.wf = true ∧
    inRange fresh.params (0xFFFFFFFE : Word).toNat 2 = true ∧ inRange fresh.params (0xFFFFFFFF : Word).toNat 2 = false :=
  ⟨rfl, rfl, by decide +kernel, by decide +kernel⟩

theorem witness_ResetLeavesGivenValues : (about .reset three).pending = .reset :: [] ∧
    ∃ t, step (about .reset three) = .next t := ⟨rfl, _, rfl⟩

theorem witness_InitOutcomesInOrder :
    ((written 0 0 0 0).written.arg = true ∧ (written 0 0 0 0).regs.arg = (written 0 0 0 0).params.engineVersion ∧
      (written 0 0 0 0).ctx.initDone = false ∧ (written 0 0 0 0).params.hostLittleEndian = true ∧
      catalogOk (written 0 0 0 0).params = true) ∧
    (three.written.arg = true ∧ three.regs.arg = three.params.engineVersion ∧ three.ctx.initDone = true) ∧
    ({ fresh with regs := ⟨0, 0, 0, 0, 41⟩, written := ⟨true, true, true, true, true⟩ } : State).regs.arg ≠ 42 ∧
    ({ written 0 0 0 0 with params := { params with hostLittleEndian := false } } : State).params.hostLittleEndian = false :=
  ⟨⟨rfl, rfl, rfl, rfl, test_catalogOk⟩, ⟨rfl, rfl, rfl⟩, by decide, rfl⟩

/-- A catalog of zeros breaks 00 R12. -/
def badCatalog : State := { written 0 0 0 0 with params := { params with polyCatalog := Vector.replicate 16 0 } }

theorem witness_OnlyInitRefuses :
    badCatalog.written.arg = true ∧ badCatalog.regs.arg = badCatalog.params.engineVersion ∧ badCatalog.ctx.initDone = false ∧
    badCatalog.params.hostLittleEndian = true ∧ catalogOk badCatalog.params = false ∧
    refusalIs (exec .init badCatalog) .invalidCatalog = true :=
  ⟨rfl, rfl, rfl, rfl, by decide +kernel, by decide +kernel⟩

theorem witness_InitTwice : ∃ t, exec .init three = .next t ∧ t.ctx.initDone = true ∧ t.rc = 0x00 := ⟨_, rfl, rfl, rfl⟩

theorem witness_PolynomialSelection :
    params.defaultPolyIndex = (3 : Fin 16).val ∧ ({ params with defaultPolyIndex := -1 } : Params).defaultPolyIndex < 0 ∧
    16 ≤ ({ params with defaultPolyIndex := 16 } : Params).defaultPolyIndex ∧ catalogOk params = true :=
  ⟨rfl, by decide, by decide, test_catalogOk⟩

/-- The catalog's first and last index, and the polynomials of their entries 0x8E and 0xFA (40 R104, 93 G1). -/
theorem witness_PolynomialSelection_ends :
    ({ params with defaultPolyIndex := 0 } : Params).defaultPolyIndex = (0 : Fin 16).val ∧
    ({ params with defaultPolyIndex := 15 } : Params).defaultPolyIndex = (15 : Fin 16).val ∧
    polyOf { params with defaultPolyIndex := 0 } = 0x11D ∧ polyOf { params with defaultPolyIndex := 15 } = 0x1F5 :=
  ⟨rfl, rfl, by decide +kernel, by decide +kernel⟩

theorem witness_ExprdTermBeyondExp : 1020 ≤ (1020 : BitVec 10).toNat ∧ 1020 ≤ (1023 : BitVec 10).toNat := by decide

theorem witness_tables_after_init : Inv three ∧ three.ctx.initDone = true ∧ three.ctx.poly = 0x14D ∧ three.params.logOfOne = .zero :=
  ⟨three_inv, rfl, by decide +kernel, rfl⟩

theorem witness_logOfOne_255 :
    Inv { three with params := { params with logOfOne := .twoFiftyFive }, ctx := builtContext { params with logOfOne := .twoFiftyFive } } :=
  ⟨rfl, .inr ⟨test_catalogOk, rfl⟩⟩

theorem witness_lookups_before_init : fresh.ctx = FieldContext.unpopulated := rfl

theorem witness_lookups :
    isLookup (.exprd 1019) = true ∧ (Instr.exprd 1019).wf = true ∧ (∀ x y, Instr.exprd 1019 ≠ .gfadd x y) :=
  ⟨rfl, by decide, fun _ _ => Instr.noConfusion⟩

theorem witness_buffer_dst_a :
    three.mem.wf = true ∧ BufferReady three [.dst, .a] 2 ∧ AliasAllowed .add three 2 ∧ AliasAllowed (.muladd 2) three 2 ∧
    AliasAllowed (.mul 2) three 2 := by
  refine ⟨rfl, by decide +kernel, ?_, ?_, ?_⟩ <;> change ¬Overlap _ _ _ <;> decide +kernel

theorem witness_buffer_dst_a_b :
    BufferReady three [.dst, .a, .b] 2 ∧ AliasAllowed .add2 three 2 ∧ AliasAllowed .addset three 2 ∧
    (∀ k, k < 2 → three.mem.read (three.addr .dst + k) = 0) :=
  ⟨by decide +kernel, ⟨.inr (by decide +kernel), .inr (by decide +kernel)⟩, ⟨by decide +kernel, by decide +kernel⟩, fun _ _ => rfl⟩

theorem witness_buffer_a_b : BufferReady three [.a, .b] 2 ∧ AliasAllowed .swap three 2 := by
  refine ⟨by decide +kernel, ?_⟩
  change ¬Overlap _ _ _
  decide +kernel

theorem witness_BufferCheckOrder :
    (∃ r ∈ readRegisters .swap, fresh.written.get r = false) ∧
    (AllWritten (written 0 0 0 1) (readRegisters .swap) ∧ (written 0 0 0 1).ctx.initDone = false) ∧
    (AllWritten (ready 0 0 0 0x80000000 []) (readRegisters .swap) ∧ (ready 0 0 0 0x80000000 []).regs.len.toInt < 0) ∧
    (AllWritten (ready 0 0 0 0 []) (readRegisters .swap) ∧ (ready 0 0 0 0 []).regs.len.toInt = 0) ∧
    (bufferOperands .add = [.dst] ++ .a :: [] ∧ AllInRange (ready 0xFFFFFFFE 0xFFFFFFFF 0 2 []) [.dst] 2 ∧
      inRange params (State.addr (ready 0xFFFFFFFE 0xFFFFFFFF 0 2 []) .a) 2 = false) ∧
    (AllInRange (ready 0x1000 0x1001 0 2 []) (bufferOperands .add) 2 ∧ ¬AliasAllowed .add (ready 0x1000 0x1001 0 2 []) 2) :=
  ⟨by decide, ⟨by decide, rfl⟩, ⟨by decide, by decide⟩, ⟨by decide, by decide⟩, ⟨rfl, by decide +kernel, by decide +kernel⟩,
    ⟨by decide +kernel, fun h => h (by decide +kernel)⟩⟩

theorem three_add :
    exec .add three = .next ((three.setMem (addLoop (three.addr .dst) (three.addr .a) 2 three.mem)).complete .ok) := by
  unfold exec execAdd
  exact runBuffer_ready _ _ _ _ _ witness_buffer_dst_a.2.1 (by decide +kernel)

/-- The state after `MUL` by 2 on `three`. -/
def afterMul : State := (three.setMem (mulLoop three.ctx.mul 2 (three.addr .dst) (three.addr .a) 2 three.mem)).complete .ok

theorem three_mul : exec (.mul 2) three = .next afterMul := by
  unfold exec execMul
  exact runBuffer_ready _ _ _ _ _ witness_buffer_dst_a.2.1 (by decide +kernel)

/-- Where the hosts point the second `MUL` of the inverse scaling: from `dst` of the first to a third buffer. -/
def secondMul : State := { afterMul with regs := ⟨0x2000, 0xFFFFFFFC, 0x1000, 2, 42⟩ }

theorem witness_InverseScaling :
    exec (.mul 2) three = .next afterMul ∧ secondMul.mem = afterMul.mem ∧ secondMul.ctx = afterMul.ctx ∧
    secondMul.params = afterMul.params ∧ secondMul.addr .a = three.addr .dst ∧ BufferReady secondMul [.dst, .a] 2 ∧
    AliasAllowed (.mul 2) secondMul 2 := by
  refine ⟨three_mul, rfl, rfl, rfl, rfl, by decide +kernel, ?_⟩
  change ¬Overlap _ _ _
  decide +kernel

theorem witness_steps :
    (∃ t, step (about (.write 0x00 .word 0x00000001) three) = .next t) ∧
    (about (.write 0x00 .word 0x00000001) three).ctx.initDone = true ∧
    (∀ rest, (about (.write 0x00 .word 0x00000001) three).pending ≠ .reset :: rest) :=
  ⟨⟨_, rfl⟩, rfl, fun _ h => by injection h with h; cases h⟩

theorem witness_field_context_changes :
    ∃ t, step (about .reset three) = .next t ∧ t.ctx ≠ three.ctx :=
  ⟨_, rfl, fun h => absurd (congrArg FieldContext.initDone h) (by decide)⟩

theorem witness_result_changes :
    ∃ t, step (about (.write 0x00 .word 0x00CA5308) { three with result := 0 }) = .next t ∧ t.result ≠ 0 :=
  ⟨_, rfl, by decide⟩

theorem witness_return_codes :
    (∃ t, exec .init three = .next t) ∧ (isBuffer .add = true ∧ ∃ t, exec .add three = .next t) ∧
    (∃ t, exec (.logrd 0) three = .next t) :=
  ⟨⟨_, rfl⟩, ⟨rfl, _, three_add⟩, ⟨_, rfl⟩⟩

theorem witness_UnlistedRegisters : OperandReg.arg ∉ readRegisters .add ∧ OperandReg.b ∉ readRegisters .add := by decide

end Sys2Proof.Tests
end

section
/-! PROOFS of the family 10_state: what a command does by its kind and which faults it raises, the register window's rules, and the
obligations O5, O8 and O10. -/

namespace Sys2Proof.Machine

/-! ### Registers that no host has written -/

/-- Where some register of the list is unwritten, one such register is named (10 R32). -/
theorem State.firstUnwritten_eq_some {s : State} {rs : List OperandReg} (h : ∃ r ∈ rs, s.written.get r = false) :
    ∃ r, s.firstUnwritten rs = some r := by
  obtain ⟨r, hr, hw⟩ := h
  have hsome : (s.firstUnwritten rs).isSome := List.find?_isSome.mpr ⟨r, hr, by simp [hw]⟩
  exact Option.isSome_iff_exists.mp hsome

/-- The register named is one of the list and is unwritten. -/
theorem State.unwritten_of_firstUnwritten {s : State} {rs : List OperandReg} {r : OperandReg}
    (h : s.firstUnwritten rs = some r) : r ∈ rs ∧ s.written.get r = false :=
  ⟨List.mem_of_find?_eq_some h, by simpa using List.find?_some h⟩

theorem State.firstUnwritten_singleton {s : State} {r : OperandReg} (h : s.written.get r = false) :
    s.firstUnwritten [r] = some r := by
  simp [State.firstUnwritten, h]

theorem State.writeReg_written_get (s : State) (r : OperandReg) (v : Word) : (s.writeReg r v).written.get r = true :=
  PerReg.get_set_same s.written r true

theorem State.reset_written_get (r : OperandReg) : State.reset.written.get r = false := by
  cases r <;> rfl

/-! ### The faults of a command -/

section
variable {i : Instr} {bufs : List OperandReg} {mayAlias : State → Nat → Bool} {body : State → Nat → Memory → Memory}
  {s : State}

theorem runBuffer_unwritten {r : OperandReg} (h : s.firstUnwritten (bufs ++ [.len]) = some r) :
    runBuffer i bufs mayAlias body s = .fault (.unwrittenOperand (.command (encode i)) r) := by
  simp [runBuffer, h]

/-- Every fault a buffer command raises, with the check that raises it (42 R170). -/
theorem runBuffer_fault {f : Fault} (h : runBuffer i bufs mayAlias body s = .fault f) :
    (∃ r, s.firstUnwritten (bufs ++ [.len]) = some r ∧ f = .unwrittenOperand (.command (encode i)) r) ∨
    (s.ctx.initDone = false ∧ f = .preInit (encode i)) ∨
    (s.length < 0 ∧ f = .negativeLength (encode i) s.regs.len) ∨
    (∃ r, s.firstOutOfRange bufs s.length.toNat = some r ∧ f = .range (encode i) r) ∨
    (mayAlias s s.length.toNat = false ∧ f = .aliasing (encode i)) := by
  cases hw : s.firstUnwritten (bufs ++ [.len]) with
  | some r =>
    rw [runBuffer_unwritten hw] at h
    injection h with h
    exact .inl ⟨r, rfl, h.symm⟩
  | none =>
    cases hr : s.firstOutOfRange bufs s.length.toNat with
    | some r =>
      simp only [runBuffer, hw, hr] at h
      split_ifs at h with hinit hneg hzero <;> injection h with h
      · exact .inr (.inl ⟨hinit, h.symm⟩)
      · exact .inr (.inr (.inl ⟨hneg, h.symm⟩))
      · exact .inr (.inr (.inr (.inl ⟨r, rfl, h.symm⟩)))
    | none =>
      simp only [runBuffer, hw, hr] at h
      split_ifs at h with hinit hneg hzero halias <;> injection h with h
      · exact .inr (.inl ⟨hinit, h.symm⟩)
      · exact .inr (.inr (.inl ⟨hneg, h.symm⟩))
      · exact .inr (.inr (.inr (.inr ⟨halias, h.symm⟩)))

end

theorem execInit_unwritten {s : State} {r : OperandReg} (h : s.firstUnwritten [.arg] = some r) :
    execInit s = .fault (.unwrittenOperand (.command (encode .init)) r) := by
  simp [execInit, h]

/-- The only fault of `INIT` (40 R100). -/
theorem execInit_fault {s : State} {f : Fault} (h : execInit s = .fault f) :
    ∃ r, s.firstUnwritten [.arg] = some r ∧ f = .unwrittenOperand (.command (encode .init)) r := by
  cases hw : s.firstUnwritten [.arg] with
  | some r =>
    rw [execInit_unwritten hw] at h
    injection h with h
    exact ⟨r, rfl, h.symm⟩
  | none =>
    simp only [execInit, hw] at h
    split_ifs at h

/-! ### A command by its kind -/

/-- A buffer command is `runBuffer` on its own buffers. -/
theorem exec_of_isBuffer {i : Instr} (h : isBuffer i = true) :
    ∃ mayAlias body, exec i = runBuffer i (bufferOperands i) mayAlias body := by
  cases i with
  | add2 => exact ⟨_, _, by unfold exec execAdd2; rfl⟩
  | addset => exact ⟨_, _, by unfold exec execAddset; rfl⟩
  | add | muladd k | mul k | swap => exact ⟨_, _, rfl⟩
  | _ => cases h

/-- A lookup answers a value, but for an index that no word encodes (41 R140, log 20). -/
theorem exec_of_isLookup {i : Instr} (h : isLookup i = true) (s : State) :
    (∃ v, exec i s = answer v s) ∨ exec i s = .next s.illegalCommand := by
  cases i with
  | gfadd x y | gfmul x y | gfdiv x y | gfinv x | logrd x => exact .inl ⟨_, rfl⟩
  | exprd k =>
    change (∃ v, execExprd k s = _) ∨ execExprd k s = _
    unfold execExprd
    split_ifs
    · exact .inl ⟨_, rfl⟩
    · exact .inr rfl
  | _ => cases h

theorem instr_kind (i : Instr) : i = .init ∨ isBuffer i = true ∨ isLookup i = true := by
  cases i with
  | init => exact .inl rfl
  | add | add2 | addset | muladd k | mul k | swap => exact .inr (.inl rfl)
  | gfadd x y | gfmul x y | gfdiv x y | gfinv x | exprd k | logrd x => exact .inr (.inr rfl)

theorem readRegisters_of_isBuffer {i : Instr} (h : isBuffer i = true) : readRegisters i = bufferOperands i ++ [.len] := by
  cases i with
  | add | add2 | addset | muladd k | mul k | swap => rfl
  | _ => cases h

theorem readRegisters_of_isLookup {i : Instr} (h : isLookup i = true) : readRegisters i = [] := by
  cases i with
  | gfadd x y | gfmul x y | gfdiv x y | gfinv x | exprd k | logrd x => rfl
  | _ => cases h

/-- A command that reads an unwritten register faults, naming the first one (10 R32). -/
theorem exec_unwritten {i : Instr} {s : State} {r : OperandReg} (h : s.firstUnwritten (readRegisters i) = some r) :
    exec i s = .fault (.unwrittenOperand (.command (encode i)) r) := by
  rcases instr_kind i with rfl | hb | hl
  · exact execInit_unwritten h
  · obtain ⟨mayAlias, body, he⟩ := exec_of_isBuffer hb
    rw [readRegisters_of_isBuffer hb] at h
    rw [he, runBuffer_unwritten h]
  · rw [readRegisters_of_isLookup hl] at h
    cases h

/-- Every fault a command raises records the command's own word (60 R214). -/
theorem exec_fault {i : Instr} {s : State} {f : Fault} (h : exec i s = .fault f) :
    (∃ r, s.firstUnwritten (readRegisters i) = some r ∧ f = .unwrittenOperand (.command (encode i)) r) ∨
    (isBuffer i = true ∧
      (f = .preInit (encode i) ∨ f = .negativeLength (encode i) s.regs.len ∨ (∃ r, f = .range (encode i) r) ∨
        f = .aliasing (encode i))) := by
  rcases instr_kind i with rfl | hb | hl
  · exact .inl (execInit_fault h)
  · obtain ⟨mayAlias, body, he⟩ := exec_of_isBuffer hb
    rw [he] at h
    rw [readRegisters_of_isBuffer hb]
    rcases runBuffer_fault h with hu | ⟨-, hf⟩ | ⟨-, hf⟩ | ⟨r, -, hf⟩ | ⟨-, hf⟩
    · exact .inl hu
    · exact .inr ⟨hb, .inl hf⟩
    · exact .inr ⟨hb, .inr (.inl hf)⟩
    · exact .inr ⟨hb, .inr (.inr (.inl ⟨r, hf⟩))⟩
    · exact .inr ⟨hb, .inr (.inr (.inr hf))⟩
  · rcases exec_of_isLookup hl s with ⟨v, he⟩ | he <;> rw [he] at h <;> cases h

/-- A command raises no fault of the register window. -/
theorem exec_ne_badRegisterAccess (i : Instr) (s : State) (o : Nat) (w : AccessWidth) :
    exec i s ≠ .fault (.badRegisterAccess o w) := by
  intro h
  rcases exec_fault h with ⟨r, -, hf⟩ | ⟨-, hf | hf | ⟨r, hf⟩ | hf⟩ <;> cases hf

theorem issue_ne_badRegisterAccess (v : Word) (s : State) (o : Nat) (w : AccessWidth) :
    issue v s ≠ .fault (.badRegisterAccess o w) := by
  cases hd : decode v with
  | ok i => rw [issue_ok hd]; exact exec_ne_badRegisterAccess i s o w
  | error e => rw [issue_error hd]; exact nofun

/-! ### The register window -/

/-- The offsets of the operand registers (10 R22). -/
abbrev operandOffsets : List (Nat × OperandReg) := [(0x08, .dst), (0x0C, .a), (0x10, .b), (0x14, .len), (0x18, .arg)]

theorem accessOk_eq_false {offset : Nat} {width : AccessWidth}
    (h : width ≠ .word ∨ offset % 4 ≠ 0 ∨ 0x40 ≤ offset) : accessOk offset width = false := by
  rw [← Bool.not_eq_true, accessOk_iff]
  rintro ⟨hw, ha, ho⟩
  exact h.elim (· hw) (by omega)

theorem hostReg_eq_reserved {offset : Nat} (h : 0x28 ≤ offset) : hostReg offset = .reserved := by
  obtain ⟨k, rfl⟩ := Nat.exists_eq_add_of_le' h
  rfl

theorem accessOk_operand {offset : Nat} {r : OperandReg} (h : (offset, r) ∈ operandOffsets) :
    accessOk offset .word = true := by
  have hall : ∀ p ∈ operandOffsets, accessOk p.1 .word = true := by decide
  exact hall _ h

theorem hostReg_operand {offset : Nat} {r : OperandReg} (h : (offset, r) ∈ operandOffsets) :
    hostReg offset = .operand r := by
  have hall : ∀ p ∈ operandOffsets, hostReg p.1 = .operand p.2 := by decide
  exact hall _ h

section
variable {offset : Nat} {width : AccessWidth}

theorem hostWrite_refused (h : accessOk offset width = false) (v : Word) (s : State) :
    hostWrite offset width v s = .fault (.badRegisterAccess offset width) := by
  simp [hostWrite, h]

theorem hostRead_refused (h : accessOk offset width = false) (s : State) :
    hostRead offset width s = .fault (.badRegisterAccess offset width) := by
  simp [hostRead, h]

theorem hostWrite_operand {r : OperandReg} (h : (offset, r) ∈ operandOffsets) (v : Word) (s : State) :
    hostWrite offset .word v s = .next (s.writeReg r v) := by
  simp [hostWrite, accessOk_operand h, hostReg_operand h]

theorem hostRead_operand_unwritten {r : OperandReg} (h : (offset, r) ∈ operandOffsets) {s : State}
    (hw : s.written.get r = false) : hostRead offset .word s = .fault (.unwrittenOperand (.access offset) r) := by
  simp [hostRead, accessOk_operand h, hostReg_operand h, State.firstUnwritten_singleton hw]

/-- A write to a reserved offset is ignored (10 R31). -/
theorem hostWrite_reserved (hok : accessOk offset width = true) (h : 0x28 ≤ offset) (v : Word) (s : State) :
    hostWrite offset width v s = .next s := by
  simp [hostWrite, hok, hostReg_eq_reserved h]

/-- A reserved offset reads 0 (10 R31). -/
theorem hostRead_reserved (hok : accessOk offset width = true) (h : 0x28 ≤ offset) (s : State) :
    hostRead offset width s = .next (s.observe 0) := by
  simp [hostRead, hok, hostReg_eq_reserved h]

/-- A write to a read-only register changes nothing (10 R31). -/
theorem hostWrite_readOnly (h : offset = 0x04 ∨ offset = 0x1C ∨ offset = 0x20 ∨ offset = 0x24) (v : Word) (s : State) :
    hostWrite offset .word v s = .next s := by
  rcases h with rfl | rfl | rfl | rfl <;> rfl

/-- An accepted write raises no fault of the window, whatever command it issues. -/
theorem hostWrite_ne_badRegisterAccess (hok : accessOk offset width = true) (v : Word) (s : State) (o : Nat)
    (w : AccessWidth) : hostWrite offset width v s ≠ .fault (.badRegisterAccess o w) := by
  cases hr : hostReg offset with
  | cmd => simpa [hostWrite, hok, hr] using issue_ne_badRegisterAccess v s o w
  | _ => simp [hostWrite, hok, hr]

/-- An accepted read raises no fault of the window. -/
theorem hostRead_ne_badRegisterAccess (hok : accessOk offset width = true) (s : State) (o : Nat) (w : AccessWidth) :
    hostRead offset width s ≠ .fault (.badRegisterAccess o w) := by
  cases hr : hostReg offset with
  | operand r => cases hu : s.firstUnwritten [r] <;> simp [hostRead, hok, hr, hu]
  | _ => simp [hostRead, hok, hr]

end

/-! ### Steps -/

/-- A pending `CMD` write whose word decodes is the command itself (10 R23). -/
theorem step_cmd {s : State} {w : Word} {i : Instr} {rest : List HostAction}
    (hp : s.pending = .write 0x00 .word w :: rest) (hd : decode w = .ok i) : step s = exec i (s.setPending rest) := by
  rw [step_cons hp]
  exact issue_ok hd _

theorem State.withFetchWord_toNat (s : State) (w : Word) :
    s.withFetchWord 32 w.toNat = s.setPending (.write 0x00 .word w :: s.pending) := by
  rw [State.withFetchWord, placeCommand, Nat.mod_eq_of_lt w.isLt, BitVec.ofNat_toNat, BitVec.setWidth_eq]

theorem step_withFetchWord {w : Word} {i : Instr} (hd : decode w = .ok i) (s : State) :
    step (s.withFetchWord 32 w.toNat) = exec i s := by
  rw [State.withFetchWord_toNat, step_cmd rfl hd, State.setPending_setPending, State.setPending_self]

/-! ### The obligations -/

/-- Settles O10: of the registers a command reads, `firstUnwritten` picks one whose bit is 0, and every kind of command checks it before
anything else. -/
theorem unwrittenOperandFaults : Obligations.UnwrittenOperandFaults := by
  refine ⟨State.reset_written_get, ?reset, ?write, ?command, ?read⟩
  case reset =>
    intro s rest hp
    exact ⟨_, step_cons hp, State.reset_written_get⟩
  case write =>
    intro s offset r v rest hr hp
    exact ⟨_, (step_cons hp).trans (hostWrite_operand hr v _), State.writeReg_written_get _ r v⟩
  case command =>
    intro i s h
    obtain ⟨r, hfirst⟩ := State.firstUnwritten_eq_some h
    obtain ⟨hr, hw⟩ := State.unwritten_of_firstUnwritten hfirst
    exact ⟨r, hr, hw, exec_unwritten hfirst⟩
  case read =>
    intro s offset r rest hr hp hw
    exact (step_cons hp).trans (hostRead_operand_unwritten hr hw)

/-- Settles O5, by the step's rule for a `CMD` write; `State.withFetchWord` places such a write. -/
theorem stepRunsDecodedCommand : Obligations.StepRunsDecodedCommand :=
  ⟨fun _ _ _ _ hp hd => step_cmd hp hd, fun s _ _ hd => step_withFetchWord hd s, fun _ _ hp => step_cons hp⟩

/-- Settles O8: the window's check refuses exactly the accesses of 10 R31, and no command raises the window's fault. -/
theorem registerAccessRules : Obligations.RegisterAccessRules := by
  have accepted : ∀ {offset : Nat} {width : AccessWidth}, width = .word → offset % 4 = 0 → offset ≤ 0x3C →
      accessOk offset width = true := fun hw ha ho => accessOk_iff.mpr ⟨hw, ha, by omega⟩
  constructor
  · intro s offset width v rest hp
    rw [step_cons hp]
    refine ⟨fun h => hostWrite_refused (accessOk_eq_false h) v _, ?reserved, ?readOnly, ?noOther⟩
    case reserved => exact fun hw ha hlo hhi => hostWrite_reserved (accepted hw ha hhi) hlo v _
    case readOnly => rintro rfl h; exact hostWrite_readOnly h v _
    case noOther => exact fun hw ha ho => hostWrite_ne_badRegisterAccess (accepted hw ha ho) v _
  · intro s offset width rest hp
    rw [step_cons hp]
    refine ⟨fun h => hostRead_refused (accessOk_eq_false h) _, ?reserved, ?noOther⟩
    case reserved => exact fun hw ha hlo hhi => hostRead_reserved (accepted hw ha hhi) hlo _
    case noOther => exact fun hw ha ho => hostRead_ne_badRegisterAccess (accepted hw ha ho) _

end Sys2Proof.Machine
end

section
/-! PROOFS of the family 20_memory: which commands and steps change the field context, and the obligation O47. -/

namespace Sys2Proof.Machine

/-- Only `INIT`'s build path writes the field context, and only while `INIT_DONE` is 0 (40 R101, R102). -/
theorem exec_ctx {i : Instr} {s t : State} (h : exec i s = .next t) :
    t.ctx = s.ctx ∨
    (i = .init ∧ s.regs.arg = s.params.engineVersion ∧ s.ctx.initDone = false ∧
      t = (s.setCtx (builtContext s.params)).complete .ok) := by
  rcases exec_next h with ⟨hi, hinit⟩ | ⟨-, m, rfl⟩ | ⟨-, ⟨v, rfl⟩ | rfl⟩
  · rcases execInit_next hinit with ⟨-, rfl⟩ | ⟨-, -, rfl⟩ | ⟨-, -, -, rfl⟩ | ⟨harg, hdone, -, -, ht⟩
    · exact .inl (State.complete_ctx _ _)
    · exact .inl (State.complete_ctx _ _)
    · exact .inl (State.complete_ctx _ _)
    · exact .inr ⟨hi, harg, hdone, ht⟩
  · simp
  · simp
  · simp

/-- Only a reset, or the build path of a pending `INIT`, writes the field context (10 R33, R40). -/
theorem step_ctx {s t : State} (h : step s = .next t) :
    t.ctx = s.ctx ∨
    (∃ rest, s.pending = .reset :: rest) ∨
    (∃ w rest, s.pending = .write 0x00 .word w :: rest ∧ decode w = .ok .init ∧ s.regs.arg = s.params.engineVersion ∧
      s.ctx.initDone = false ∧ t = ((s.setPending rest).setCtx (builtContext s.params)).complete .ok) := by
  rcases step_next h with ⟨-, rfl⟩ | ⟨rest, u, rfl, ⟨w, i, hp, hd, he⟩ | ⟨_, _, _, _, rfl⟩ | ⟨_, _, _, _, _, rfl⟩ |
    ⟨_, _, _, _, rfl⟩ | ⟨_, _, _, _, rfl⟩ | ⟨_, _, _, _, rfl⟩ | ⟨hp, -⟩⟩
  · exact .inl rfl -- idle
  · rcases exec_ctx he with hctx | ⟨rfl, harg, hdone, ht⟩ -- a command
    · exact .inl hctx
    · exact .inr (.inr ⟨w, rest, hp, hd, harg, hdone, ht⟩)
  · simp -- an illegal word
  · simp -- a write of an operand register
  · simp -- a write without effect
  · simp -- a read
  · simp -- a write of buffer memory
  · exact .inr (.inl ⟨rest, hp⟩) -- a reset

/-! ### The obligation -/

/-- Settles O47: with `INIT_DONE` = 1 the build path of `INIT` is closed, and a reset is excluded. -/
theorem tablesNeverChangeOnceBuilt : Obligations.TablesNeverChangeOnceBuilt := by
  intro s t hdone hreset h
  rcases step_ctx h with hctx | ⟨rest, hp⟩ | ⟨-, -, -, -, -, hnot, -⟩
  · exact hctx
  · exact absurd hp (hreset rest)
  · exact absurd hdone (by simp [hnot])

end Sys2Proof.Machine
end

section
/-! PROOFS of the family 30_encoding: which words the decoder rejects, which operand registers a command's outcome depends on, and the
obligations O3, O4 and O53. -/

namespace Sys2Proof

/-! ### Bit ranges of a word -/

/-- A bit range reads 0 where each of its bits is 0. -/
theorem extractLsb'_eq_zero_iff {w : Word} {lo n : Nat} :
    w.extractLsb' lo n = 0 ↔ ∀ k, lo ≤ k → k < lo + n → w.getLsbD k = false := by
  constructor
  · intro h k hlo hhi
    have hbit := congrArg (·.getLsbD (k - lo)) h
    simpa [show k - lo < n by omega, Nat.add_sub_cancel' hlo] using hbit
  · intro h
    ext k hk
    simpa [hk] using h (lo + k) (by omega) (by omega)

/-- The decoder's comparison of 30 R79, for a mask that keeps all of `OP`: outside `OP`, every bit the mask keeps is 0. -/
theorem and_mask_eq_fieldOp_iff {w mask : Word} (hop : ∀ k < 5, mask.getLsbD k = true) :
    w &&& mask = (fieldOp w).zeroExtend 32 ↔
      ∀ k, 5 ≤ k → k < 32 → mask.getLsbD k = true → w.getLsbD k = false := by
  constructor
  · intro h k hlo hhi hmask
    have hbit := congrArg (·.getLsbD k) h
    simpa [fieldOp, hmask, show ¬k < 5 by omega] using hbit
  · intro h
    refine BitVec.eq_of_getLsbD_eq fun k hk => ?_
    by_cases hlt : k < 5
    · simp [fieldOp, hk, hlt, hop k hlt]
    · cases hmask : mask.getLsbD k with
      | false => simp [fieldOp, hlt, hmask]
      | true => simp [fieldOp, hlt, hmask, h k (by omega) hk hmask]

/-- The bits each format's mask keeps, as 30 R73 to R76 list them: `OP` and the reserved ones. -/
theorem formatMask_getLsbD {k : Nat} (hk : k < 32) (f : Format) :
    (formatMask f).getLsbD k =
      match f with
      | .n => true
      | .s => decide (k < 8 ∨ 16 ≤ k)
      | .p => decide (k < 8 ∨ 24 ≤ k)
      | .t => decide (k < 8 ∨ 18 ≤ k) := by
  revert k
  cases f <;> decide

/-- The reserved bit ranges of each format are 0 (30 R73 to R76). -/
def ReservedClear (w : Word) : Format → Prop
  | .n => w.extractLsb' 5 27 = 0
  | .s => w.extractLsb' 5 3 = 0 ∧ w.extractLsb' 16 16 = 0
  | .p => w.extractLsb' 5 3 = 0 ∧ w.extractLsb' 24 8 = 0
  | .t => w.extractLsb' 5 3 = 0 ∧ w.extractLsb' 18 14 = 0

/-- The decoder's masked comparison accepts exactly the words whose reserved bits are 0. -/
theorem masked_eq_iff_reservedClear (w : Word) (f : Format) :
    w &&& formatMask f = (fieldOp w).zeroExtend 32 ↔ ReservedClear w f := by
  have keepsOp : ∀ k < 5, (formatMask f).getLsbD k = true := by cases f <;> decide
  rw [and_mask_eq_fieldOp_iff keepsOp]
  cases f <;> simp only [ReservedClear, extractLsb'_eq_zero_iff]
  case n => exact ⟨fun h k hlo hhi => h k hlo hhi (formatMask_getLsbD hhi .n), fun h k hlo hhi _ => h k hlo hhi⟩
  all_goals
    constructor
    · intro h
      constructor <;> intro k hlo hhi
      all_goals
        refine h k (by omega) (by omega) ((formatMask_getLsbD (by omega) _).trans (decide_eq_true ?_))
        omega
    · rintro ⟨hlow, hhigh⟩ k hlo hhi hmask
      rw [formatMask_getLsbD hhi] at hmask
      rcases of_decide_eq_true hmask with hk | hk
      · exact hlow k hlo hk
      · exact hhigh k hk hhi

/-! ### The operation codes by format (30 R78) -/

theorem opcodeOf_eq_none_iff : ∀ op : BitVec 5, opcodeOf op = none ↔ op.toNat = 0 ∨ 0x0E ≤ op.toNat := by decide

theorem opcode_format_n_iff :
    ∀ op : BitVec 5, op.toNat ∈ [0x01, 0x02, 0x03, 0x04, 0x07] ↔ (opcodeOf op).map formatOf = some .n := by decide

theorem opcode_format_s_iff :
    ∀ op : BitVec 5, op.toNat ∈ [0x05, 0x06, 0x0B, 0x0D] ↔ (opcodeOf op).map formatOf = some .s := by decide

theorem opcode_format_p_iff :
    ∀ op : BitVec 5, op.toNat ∈ [0x08, 0x09, 0x0A] ↔ (opcodeOf op).map formatOf = some .p := by decide

theorem opcode_format_t_iff : ∀ op : BitVec 5, op.toNat = 0x0C ↔ (opcodeOf op).map formatOf = some .t := by decide

/-! ### Which words decode -/

theorem decode_of_reserved {w : Word} (h : opcodeOf (fieldOp w) = none) : decode w = .error .reservedOpcode := by
  simp [decode, h]

/-- A word whose `OP` is in use is rejected for a reserved bit, or for format T's index, and for nothing else (30 R79). -/
theorem decode_error_iff {w : Word} {op : Opcode} (h : opcodeOf (fieldOp w) = some op) :
    (∃ e, decode w = .error e) ↔
      ¬ReservedClear w (formatOf op) ∨ (formatOf op = .t ∧ 1020 ≤ (fieldIdx w).toNat) := by
  rw [← masked_eq_iff_reservedClear]
  simp only [decode, h]
  split_ifs with hres hidx
  · exact iff_of_true ⟨_, rfl⟩ (.inl hres)
  · exact iff_of_true ⟨_, rfl⟩ (.inr hidx)
  · exact iff_of_false nofun (not_or.mpr ⟨hres, hidx⟩)

end Sys2Proof

namespace Sys2Proof.Machine

/-- The list of illegal words, with each list of operation codes named by its format (30 R80). -/
theorem illegalWord_iff_format (w : Word) :
    IllegalWord w ↔
      opcodeOf (fieldOp w) = none ∨
      ((opcodeOf (fieldOp w)).map formatOf = some .n ∧ ¬ReservedClear w .n) ∨
      ((opcodeOf (fieldOp w)).map formatOf = some .s ∧ ¬ReservedClear w .s) ∨
      ((opcodeOf (fieldOp w)).map formatOf = some .p ∧ ¬ReservedClear w .p) ∨
      ((opcodeOf (fieldOp w)).map formatOf = some .t ∧ (¬ReservedClear w .t ∨ 1020 ≤ (fieldIdx w).toNat)) := by
  simp only [opcodeOf_eq_none_iff, ← opcode_format_n_iff, ← opcode_format_s_iff, ← opcode_format_p_iff,
    ← opcode_format_t_iff, ReservedClear, not_and_or, or_assoc]
  exact Iff.rfl

/-- The illegal words of 30 R80 are the words the decoder rejects. -/
theorem illegalWord_iff_decode_error (w : Word) : IllegalWord w ↔ ∃ e, decode w = .error e := by
  rw [illegalWord_iff_format]
  cases hop : opcodeOf (fieldOp w) with
  | none => simp [decode_of_reserved hop]
  | some op =>
    rw [decode_error_iff hop]
    cases hf : formatOf op <;> simp [hf]

/-! ### The step on an illegal word -/

/-- A pending `CMD` write of a rejected word sets `RC` and does nothing else (30 R80). -/
theorem step_illegal {s : State} {w : Word} {e : DecodeError} {rest : List HostAction}
    (hp : s.pending = .write 0x00 .word w :: rest) (hd : decode w = .error e) :
    step s = .next (s.setPending rest).illegalCommand :=
  (step_cons hp).trans (issue_error hd _)

/-! ### A register that a command does not list -/

theorem State.writeReg_regs_get_ne (s : State) {r q : OperandReg} (v : Word) (h : q ≠ r) :
    (s.writeReg r v).regs.get q = s.regs.get q :=
  PerReg.get_set_ne s.regs v h

theorem State.writeReg_written_get_ne (s : State) {r q : OperandReg} (v : Word) (h : q ≠ r) :
    (s.writeReg r v).written.get q = s.written.get q :=
  PerReg.get_set_ne s.written true h

theorem State.writeReg_addr_ne (s : State) {r q : OperandReg} (v : Word) (h : q ≠ r) :
    (s.writeReg r v).addr q = s.addr q :=
  congrArg BitVec.toNat (s.writeReg_regs_get_ne v h)

section
variable {r : OperandReg} {rs : List OperandReg}

theorem State.writeReg_firstUnwritten (s : State) (v : Word) (h : r ∉ rs) :
    (s.writeReg r v).firstUnwritten rs = s.firstUnwritten rs :=
  List.find?_congr fun q hq => by rw [s.writeReg_written_get_ne v (ne_of_mem_of_not_mem hq h)]

theorem State.writeReg_firstOutOfRange (s : State) (v : Word) (h : r ∉ rs) (n : Nat) :
    (s.writeReg r v).firstOutOfRange rs n = s.firstOutOfRange rs n :=
  List.find?_congr fun q hq => by rw [s.writeReg_addr_ne v (ne_of_mem_of_not_mem hq h), s.writeReg_params]

end

/-- An outcome with its next state, where it has one, changed by `g`. -/
def mapNext (g : State → State) : Result → Result
  | .next t => .next (g t)
  | .fault f => .fault f
  | .refused q => .refused q

@[simp] theorem mapNext_next (g : State → State) (t : State) : mapNext g (.next t) = .next (g t) := rfl
@[simp] theorem mapNext_fault (g : State → State) (f : Fault) : mapNext g (.fault f) = .fault f := rfl
@[simp] theorem mapNext_refused (g : State → State) (q : Refusal) : mapNext g (.refused q) = .refused q := rfl

theorem State.complete_writeReg (s : State) (r : OperandReg) (v : Word) (c : ReturnCode) :
    (s.writeReg r v).complete c = (s.complete c).writeReg r v := rfl

theorem State.setMem_writeReg (s : State) (r : OperandReg) (v : Word) (m : Memory) :
    (s.writeReg r v).setMem m = (s.setMem m).writeReg r v := rfl

theorem State.setCtx_writeReg (s : State) (r : OperandReg) (v : Word) (c : FieldContext) :
    (s.writeReg r v).setCtx c = (s.setCtx c).writeReg r v := rfl

/-- A buffer command's checks and work pass over a write of a register it does not list, where its aliasing rule and its work do. -/
theorem runBuffer_writeReg {i : Instr} {bufs : List OperandReg} {mayAlias : State → Nat → Bool}
    {body : State → Nat → Memory → Memory} {s : State} {r : OperandReg} {v : Word} (hr : r ∉ bufs ++ [.len])
    (halias : mayAlias (s.writeReg r v) = mayAlias s) (hbody : body (s.writeReg r v) = body s) :
    runBuffer i bufs mayAlias body (s.writeReg r v) = mapNext (·.writeReg r v) (runBuffer i bufs mayAlias body s) := by
  have hbufs : r ∉ bufs := fun h => hr (List.mem_append_left _ h)
  have hlen : (s.writeReg r v).regs.len = s.regs.len :=
    s.writeReg_regs_get_ne v (q := .len) (ne_of_mem_of_not_mem (by simp) hr)
  have hlength : (s.writeReg r v).length = s.length := congrArg BitVec.toInt hlen
  simp only [runBuffer, s.writeReg_firstUnwritten v hr, s.writeReg_firstOutOfRange v hbufs, hlength, hlen, halias, hbody,
    State.writeReg_ctx, State.writeReg_mem, State.setMem_writeReg, State.complete_writeReg]
  cases s.firstUnwritten (bufs ++ [.len]) with
  | some u => rfl
  | none =>
    cases s.firstOutOfRange bufs s.length.toNat with
    | some u => split_ifs <;> rfl
    | none => split_ifs <;> rfl

/-- A buffer command is `runBuffer` with an aliasing rule and a work that read no register but the addresses of its buffers. -/
theorem exec_of_isBuffer_reads {i : Instr} (h : isBuffer i = true) :
    ∃ mayAlias body, exec i = runBuffer i (bufferOperands i) mayAlias body ∧
      ∀ s s' : State, s'.ctx = s.ctx → (∀ q ∈ bufferOperands i, s'.addr q = s.addr q) →
        mayAlias s' = mayAlias s ∧ body s' = body s := by
  cases i with
  | add | muladd k | mul k | swap | add2 | addset =>
    refine ⟨_, _, by delta exec execAdd execAdd2 execAddset execMuladd execMul execSwap; rfl, fun s s' hctx haddr => ?_⟩
    simp only [bufferOperands, List.forall_mem_cons] at haddr
    simp [State.disjoint, State.identicalOrDisjoint, hctx, haddr]
  | _ => cases h

theorem execInit_writeReg (s : State) {r : OperandReg} (v : Word) (hr : r ∉ [OperandReg.arg]) :
    execInit (s.writeReg r v) = mapNext (·.writeReg r v) (execInit s) := by
  have harg : (s.writeReg r v).regs.arg = s.regs.arg :=
    s.writeReg_regs_get_ne v (q := .arg) (ne_of_mem_of_not_mem (by simp) hr)
  simp only [execInit, s.writeReg_firstUnwritten v hr, harg, State.writeReg_params, State.writeReg_ctx,
    State.setCtx_writeReg, State.complete_writeReg]
  cases s.firstUnwritten [.arg] with
  | some u => rfl
  | none =>
    simp only [apply_ite (mapNext _), mapNext_next, mapNext_refused]
    rfl

/-- A lookup reads no operand register (41 R140). -/
theorem lookup_writeReg {i : Instr} (h : isLookup i = true) (s : State) (r : OperandReg) (v : Word) :
    exec i (s.writeReg r v) = mapNext (·.writeReg r v) (exec i s) := by
  cases i with
  | gfadd x y | gfmul x y | gfdiv x y | gfinv x | logrd x => rfl
  | exprd k =>
    change execExprd k _ = mapNext _ (execExprd k s)
    unfold execExprd
    split_ifs <;> rfl
  | _ => cases h

/-- A write of a register that a command does not list commutes with the command, whatever its outcome (30 R71). -/
theorem exec_writeReg_of_unlisted {i : Instr} (s : State) {r : OperandReg} (v : Word) (hr : r ∉ readRegisters i) :
    exec i (s.writeReg r v) = mapNext (·.writeReg r v) (exec i s) := by
  rcases instr_kind i with rfl | hb | hl
  · exact execInit_writeReg s v hr
  · obtain ⟨mayAlias, body, he, hreads⟩ := exec_of_isBuffer_reads hb
    rw [readRegisters_of_isBuffer hb] at hr
    obtain ⟨halias, hbody⟩ := hreads s (s.writeReg r v) rfl fun q hq =>
      s.writeReg_addr_ne v (ne_of_mem_of_not_mem (List.mem_append_left _ hq) hr)
    rw [he]
    exact runBuffer_writeReg hr halias hbody
  · exact lookup_writeReg hl s r v

/-- No command writes an operand register or its `WRITTEN` bit. -/
theorem exec_keeps_registers {i : Instr} {s t : State} (h : exec i s = .next t) :
    t.regs = s.regs ∧ t.written = s.written := by
  rcases exec_next h with ⟨-, hinit⟩ | ⟨-, m, rfl⟩ | ⟨-, ⟨v, rfl⟩ | rfl⟩
  · rcases execInit_next hinit with ⟨-, rfl⟩ | ⟨-, -, rfl⟩ | ⟨-, -, -, rfl⟩ | ⟨-, -, -, -, rfl⟩ <;> exact ⟨rfl, rfl⟩
  · exact ⟨rfl, rfl⟩ -- a buffer command
  · exact ⟨rfl, rfl⟩ -- a lookup
  · exact ⟨rfl, rfl⟩ -- an index that no word encodes

/-! ### The obligations -/

/-- Settles O4: the words of 30 R80 are those the decoder rejects, and a rejected word only sets the return code. -/
theorem illegalWordOnlySetsReturnCode : Obligations.IllegalWordOnlySetsReturnCode := by
  intro w
  rw [illegalWord_iff_decode_error]
  constructor
  · rintro ⟨e, hd⟩ s rest hp
    exact step_illegal hp hd
  · intro hlegal
    cases hd : decode w with
    | ok i => exact ⟨i, rfl⟩
    | error e => exact absurd ⟨e, hd⟩ hlegal

/-- Settles O53: the write commutes with the command, and no command writes an operand register. -/
theorem unlistedRegistersDoNotMatter : Obligations.UnlistedRegistersDoNotMatter := by
  intro i s r v hr
  have hcomm := exec_writeReg_of_unlisted s v hr
  refine ⟨fun t h => ?next, fun f h => ?fault, fun t h => ?keeps⟩
  case next => rw [hcomm, h, mapNext_next]
  case fault => rw [hcomm, h, mapNext_fault]
  case keeps =>
    obtain ⟨hregs, hwritten⟩ := exec_keeps_registers h
    exact ⟨by rw [hregs], by rw [hwritten]⟩

/-- Settles O3: each of the words of 30 R85 is decoded as it stands. -/
theorem decodesSpecExampleWords : Obligations.DecodesSpecExampleWords := by
  unfold Obligations.DecodesSpecExampleWords
  decide

end Sys2Proof.Machine
end

section
/-! PROOFS of the family 40_table_builder: the reference multiplication as a sum of doublings, the powers of 2 modulo a primitive
polynomial, the built tables in terms of both, and the obligations O13, O16, O18, O19, O21, O22 and O23. -/

namespace Sys2Proof.Machine

/-! ### Doubling modulo `POLY` is linear -/

/-- The 9-bit shift of 40 R106 overflows into bit 8 exactly when the byte's top bit is set. -/
theorem shift_overflow_iff (v : Byte) : 256 ≤ (v.zeroExtend 9 <<< 1 : Poly).toNat ↔ v.msb = true := by
  rw [BitVec.msb_eq_decide, decide_eq_true_iff]
  have hv := v.isLt
  simp [Nat.shiftLeft_eq]
  omega

theorem double_eq (poly : Poly) (v : Byte) : double poly v = v <<< 1 ^^^ if v.msb then poly.truncate 8 else 0 := by
  simp only [double, shiftReduce, shift_overflow_iff]
  split_ifs <;> ext i hi <;> cases i <;> simp

/-- With bit 8 of the polynomial set, the reduced value is a byte again, so no bit of it is cut off (41 R148). -/
theorem shiftReduce_zeroExtend {poly : Poly} (htop : poly.getLsbD 8 = true) (v : Byte) :
    shiftReduce poly (v.zeroExtend 9) = (double poly v).zeroExtend 9 := by
  have hbyte : (shiftReduce poly (v.zeroExtend 9)).getLsbD 8 = false := by
    simp only [shiftReduce, shift_overflow_iff]
    cases hv : v.msb <;> simp_all [BitVec.msb_eq_getLsbD_last]
  refine BitVec.eq_of_getLsbD_eq fun i hi => ?_
  obtain rfl | hlt : i = 8 ∨ i < 8 := by omega
  · simpa using hbyte
  · simp [double, hi, hlt]

theorem ite_xor (b c : Bool) (v : Byte) : (if b ^^ c then v else 0) = (if b then v else 0) ^^^ if c then v else 0 := by
  cases b <;> cases c <;> simp

theorem double_xor (poly : Poly) (u v : Byte) : double poly (u ^^^ v) = double poly u ^^^ double poly v := by
  simp only [double_eq, BitVec.msb_xor, BitVec.shiftLeft_xor_distrib, ite_xor]
  ac_rfl

theorem double_zero (poly : Poly) : double poly 0 = 0 := by simp [double_eq]

theorem double_twoPow (poly : Poly) {k : Nat} (hk : k < 7) : double poly (BitVec.twoPow 8 k) = BitVec.twoPow 8 (k + 1) := by
  have hmsb : k ≠ 7 := hk.ne
  simp [double_eq, hmsb, BitVec.twoPow_eq, BitVec.shiftLeft_add]

/-! ### The reference multiplication as a sum of doublings -/

/-- The sum of the doublings of `a` that the low `k` bits of `b` select: `r` of 41 R148 after `k` rounds. -/
def doublingSum (poly : Poly) (a b : Byte) : Nat → Byte
  | 0 => 0
  | k + 1 => doublingSum poly a b k ^^^ if b.getLsbD k then (double poly)^[k] a else 0

theorem gfmulRounds_eq {poly : Poly} (htop : poly.getLsbD 8 = true) (a b : Byte) (k : Nat) :
    gfmulRounds poly a b k = ((doublingSum poly a b k).zeroExtend 9, ((double poly)^[k] a).zeroExtend 9) := by
  induction k with
  | zero => simp [gfmulRounds, doublingSum]
  | succ k ih =>
    simp only [gfmulRounds, doublingSum, ih, shiftReduce_zeroExtend htop, Function.iterate_succ_apply']
    cases b.getLsbD k <;> simp

theorem gfmul_eq_doublingSum {poly : Poly} (htop : poly.getLsbD 8 = true) (a b : Byte) :
    gfmul poly a b = doublingSum poly a b 8 := by
  simp [gfmul, gfmulRounds_eq htop]

theorem doublingSum_double (poly : Poly) (a b : Byte) (k : Nat) :
    doublingSum poly (double poly a) b k = double poly (doublingSum poly a b k) := by
  induction k with
  | zero => exact (double_zero poly).symm
  | succ k ih =>
    rw [doublingSum, doublingSum, double_xor, ih, apply_ite (double poly), double_zero,
      ← Function.iterate_succ_apply' (double poly), ← Function.iterate_succ_apply (double poly)]

theorem doublingSum_zero_left (poly : Poly) (b : Byte) (k : Nat) : doublingSum poly 0 b k = 0 := by
  induction k with
  | zero => rfl
  | succ k ih => rw [doublingSum, ih, Function.iterate_fixed (double_zero poly), ite_self]; rfl

theorem doublingSum_xor_right (poly : Poly) (a b c : Byte) (k : Nat) :
    doublingSum poly a (b ^^^ c) k = doublingSum poly a b k ^^^ doublingSum poly a c k := by
  induction k with
  | zero => simp [doublingSum]
  | succ k ih =>
    simp only [doublingSum, ih, BitVec.getLsbD_xor, ite_xor]
    ac_rfl

theorem iterate_double_one (poly : Poly) {k : Nat} (hk : k < 8) : (double poly)^[k] 1 = BitVec.twoPow 8 k := by
  induction k with
  | zero => rfl
  | succ k ih => rw [Function.iterate_succ_apply', ih (by omega), double_twoPow poly (by omega)]

/-- The doublings of 1 that `b` selects are the bits of `b`. -/
theorem doublingSum_one_getLsbD (poly : Poly) (b : Byte) {k : Nat} (hk : k ≤ 8) (i : Nat) :
    (doublingSum poly 1 b k).getLsbD i = (decide (i < k) && b.getLsbD i) := by
  induction k with
  | zero => simp [doublingSum]
  | succ k ih =>
    rw [doublingSum, iterate_double_one poly (by omega), BitVec.getLsbD_xor, ih (by omega)]
    obtain hlt | rfl | hgt := lt_trichotomy i k
    · cases b.getLsbD k <;> simp [hlt, Nat.lt_succ_of_lt hlt, hlt.ne']
    · cases b.getLsbD i <;> simp; omega
    · cases b.getLsbD k <;> simp [hgt.ne, show ¬i < k by omega, show ¬i < k + 1 by omega]

theorem doublingSum_one (poly : Poly) (b : Byte) : doublingSum poly 1 b 8 = b :=
  BitVec.eq_of_getLsbD_eq fun i hi => by rw [doublingSum_one_getLsbD poly b le_rfl, decide_eq_true hi, Bool.true_and]

/-! ### The powers of 2 -/

theorem expValue_eq_iterate (poly : Poly) (k : Nat) : expValue poly k = (double poly)^[k] 1 := by
  induction k with
  | zero => rfl
  | succ k ih => rw [expValue, ih, Function.iterate_succ_apply']

theorem expValue_add (poly : Poly) (j k : Nat) : expValue poly (j + k) = (double poly)^[j] (expValue poly k) := by
  rw [expValue_eq_iterate, expValue_eq_iterate, Function.iterate_add_apply]

section
variable {poly : Poly} (htop : poly.getLsbD 8 = true)
include htop

/-- Multiplying a power of 2 by `b` doubles `b` that often. -/
theorem gfmul_expValue (j : Nat) (b : Byte) : gfmul poly (expValue poly j) b = (double poly)^[j] b := by
  rw [gfmul_eq_doublingSum htop]
  induction j with
  | zero => exact doublingSum_one poly b
  | succ j ih => rw [expValue, doublingSum_double, ih, Function.iterate_succ_apply']

theorem gfmul_expValue_expValue (j k : Nat) :
    gfmul poly (expValue poly j) (expValue poly k) = expValue poly (j + k) := by
  rw [gfmul_expValue htop, expValue_add]

theorem gfmul_one_left (b : Byte) : gfmul poly 1 b = b := gfmul_expValue htop 0 b

theorem gfmul_xor_right (a b c : Byte) : gfmul poly a (b ^^^ c) = gfmul poly a b ^^^ gfmul poly a c := by
  simp only [gfmul_eq_doublingSum htop, doublingSum_xor_right]

theorem gfmul_zero_right (a : Byte) : gfmul poly a 0 = 0 := by
  simpa using gfmul_xor_right htop a 0 0

theorem gfmul_zero_left (b : Byte) : gfmul poly 0 b = 0 := by
  rw [gfmul_eq_doublingSum htop, doublingSum_zero_left]

theorem gfmul_two (a : Byte) : gfmul poly a 2 = double poly a := by
  rw [gfmul_eq_doublingSum htop]
  simp [doublingSum]

/-- The powers of 2 under the reference multiplication are the builder's doublings (41 R149, 40 R106). -/
theorem ge_eq_expValue (k : Nat) : ge poly k = expValue poly k := by
  induction k with
  | zero => rfl
  | succ k ih => rw [ge, ih, gfmul_two htop, expValue]

end

/-! ### Primitive polynomials -/

/-- What 00 R12 asks of the polynomial of a catalog entry: degree 8, and 2 generates every nonzero element. -/
structure FieldPoly (poly : Poly) : Prop where
  top : poly.getLsbD 8 = true
  order : primitive poly = true

theorem firstOneAt_expValue_iff (poly : Poly) (n j : Nat) :
    firstOneAt poly n (expValue poly j) = true ↔ (∀ k < n, expValue poly (j + k) ≠ 1) ∧ expValue poly (j + n) = 1 := by
  induction n generalizing j with
  | zero => simp [firstOneAt]
  | succ n ih =>
    have hnext : firstOneAt poly n (double poly (expValue poly j)) = true ↔ _ := ih (j + 1)
    simp only [firstOneAt, Bool.and_eq_true, bne_iff_ne, hnext, Nat.forall_lt_succ_left, Nat.add_right_comm j 1,
      Nat.add_assoc, and_assoc, Nat.add_zero]

section
variable {poly : Poly} (hp : FieldPoly poly)
include hp

theorem FieldPoly.expValue_255 : expValue poly 255 = 1 :=
  ((firstOneAt_expValue_iff poly 254 1).mp hp.order).2

theorem FieldPoly.expValue_ne_one {k : Nat} (hpos : 1 ≤ k) (hk : k ≤ 254) : expValue poly k ≠ 1 := by
  have h := ((firstOneAt_expValue_iff poly 254 1).mp hp.order).1 (k - 1) (by omega)
  rwa [Nat.add_sub_cancel' hpos] at h

theorem FieldPoly.expValue_add_255 (k : Nat) : expValue poly (k + 255) = expValue poly k := by
  rw [expValue_add, hp.expValue_255, ← expValue_eq_iterate]

theorem FieldPoly.expValue_mod (k : Nat) : expValue poly (k % 255) = expValue poly k :=
  Function.Periodic.map_mod_nat hp.expValue_add_255 k

/-- Doubling keeps 0, so a power that is 0 would make the 255th 0 as well. -/
theorem FieldPoly.expValue_ne_zero (k : Nat) : expValue poly k ≠ 0 := by
  intro hzero
  have hlast : expValue poly 255 = (double poly)^[255 - k % 255] (expValue poly (k % 255)) := by
    rw [← expValue_add, Nat.sub_add_cancel (Nat.mod_lt k (by decide)).le]
  rw [hp.expValue_mod, hzero, Function.iterate_fixed (double_zero poly), hp.expValue_255] at hlast
  exact absurd hlast (by decide)

/-- Two equal powers differ by an exponent whose power is 1, so by none below the order. -/
theorem FieldPoly.expValue_injOn : Set.InjOn (expValue poly) (Finset.range 255) := by
  have hlt : ∀ i j, i < j → j < 255 → expValue poly i ≠ expValue poly j := by
    intro i j hij hj heq
    refine hp.expValue_ne_one (k := j - i) (by omega) (by omega) ?_
    calc expValue poly (j - i) = expValue poly (255 - i + j) := by
          rw [← hp.expValue_add_255, show j - i + 255 = 255 - i + j by omega]
      _ = expValue poly (255 - i + i) := by rw [expValue_add, ← heq, ← expValue_add]
      _ = 1 := by rw [Nat.sub_add_cancel (by omega), hp.expValue_255]
  intro i hi j hj heq
  simp only [Finset.coe_range, Set.mem_Iio] at hi hj
  obtain h | h | h := lt_trichotomy i j
  · exact absurd heq (hlt i j h hj)
  · exact h
  · exact absurd heq.symm (hlt j i h hi)

/-- Every nonzero byte is a power of 2: the 255 powers are distinct, and there are 255 nonzero bytes. -/
theorem FieldPoly.exists_expValue {x : Byte} (hx : x ≠ 0) : ∃ k < 255, expValue poly k = x := by
  have hsurj : Set.SurjOn (expValue poly) (Finset.range 255) (Finset.univ.erase (0 : Byte)) :=
    Finset.surjOn_of_injOn_of_card_le _ (fun k _ => by simpa using hp.expValue_ne_zero k) hp.expValue_injOn
      (by simp [← FinEnum.card_eq_fintypeCard])
  obtain ⟨k, hk, hkx⟩ := hsurj (by simpa using hx)
  exact ⟨k, by simpa using hk, hkx⟩

/-! ### The reference multiplication is a field's -/

theorem FieldPoly.gfmul_comm (a b : Byte) : gfmul poly a b = gfmul poly b a := by
  by_cases ha : a = 0
  · rw [ha, gfmul_zero_left hp.top, gfmul_zero_right hp.top]
  by_cases hb : b = 0
  · rw [hb, gfmul_zero_left hp.top, gfmul_zero_right hp.top]
  obtain ⟨i, -, rfl⟩ := hp.exists_expValue ha
  obtain ⟨j, -, rfl⟩ := hp.exists_expValue hb
  rw [gfmul_expValue_expValue hp.top, gfmul_expValue_expValue hp.top, Nat.add_comm]

theorem FieldPoly.gfmul_assoc (a b c : Byte) : gfmul poly (gfmul poly a b) c = gfmul poly a (gfmul poly b c) := by
  by_cases ha : a = 0
  · simp only [ha, gfmul_zero_left hp.top]
  by_cases hb : b = 0
  · simp only [hb, gfmul_zero_left hp.top, gfmul_zero_right hp.top]
  obtain ⟨i, -, rfl⟩ := hp.exists_expValue ha
  obtain ⟨j, -, rfl⟩ := hp.exists_expValue hb
  rw [gfmul_expValue_expValue hp.top, gfmul_expValue hp.top, gfmul_expValue hp.top, gfmul_expValue hp.top,
    Function.iterate_add_apply]

end

/-! ### The polynomial `INIT` selects (40 R103, R104) -/

theorem catalogPoly_toNat (c : Byte) : (catalogPoly c).toNat = 2 * c.toNat + 1 := by
  have hshift : (c.zeroExtend 9 <<< 1 : Poly).toNat = c.toNat <<< 1 := by
    simp [Nat.shiftLeft_eq]
    omega
  have hor : c.toNat <<< 1 + 1 = c.toNat <<< 1 ||| 1 := Nat.shiftLeft_add_eq_or_of_lt (by decide) _
  rw [catalogPoly, BitVec.toNat_or, hshift, show BitVec.toNat (1 : Poly) = 1 from rfl, ← hor, Nat.shiftLeft_eq,
    pow_one, Nat.mul_comm]

theorem catalogPoly_getLsbD_zero (c : Byte) : (catalogPoly c).getLsbD 0 = true := by simp [catalogPoly]

theorem catalogPoly_fieldPoly {c : Byte} (h : catalogEntryOk c = true) : FieldPoly (catalogPoly c) := by
  obtain ⟨htop, horder⟩ : 0x80 ≤ c.toNat ∧ primitive (catalogPoly c) = true := by simpa [catalogEntryOk] using h
  refine ⟨?_, horder⟩
  have hmsb : c.msb = true := BitVec.msb_eq_true_iff_two_mul_ge.mpr (by omega)
  simpa [catalogPoly, BitVec.msb_eq_getLsbD_last] using hmsb

theorem polyOf_fieldPoly {p : Params} (h : catalogOk p = true) : FieldPoly (polyOf p) := by
  have hall : ∀ c ∈ p.polyCatalog.toList, catalogEntryOk c = true := List.all_eq_true.mp h
  exact catalogPoly_fieldPoly (hall _ (by simp))

theorem polyOf_toNat {p : Params} {k : Fin 16} (h : selectIndex p.defaultPolyIndex = k) :
    (polyOf p).toNat = 2 * p.polyCatalog[k].toNat + 1 := by
  subst h
  exact catalogPoly_toNat _

theorem selectIndex_inside (k : Fin 16) : selectIndex k.val = k := by
  revert k
  decide

theorem selectIndex_outside {i : Int} (h : i < 0 ∨ 16 ≤ i) : selectIndex i = 0 :=
  dif_neg (by omega)

/-! ### The entries the builder computes (40 R105 to R109) -/

/-- A fold that keeps the last value written holds `f k`, where `k` is the one index written. -/
theorem foldl_ite_eq {α : Type} {P : Nat → Prop} [DecidablePred P] (f : Nat → α) (init : α) {k : Nat} {l : List Nat}
    (hk : k ∈ l) (hP : ∀ j ∈ l, P j ↔ j = k) : l.foldl (fun a j => if P j then f j else a) init = f k := by
  induction l using List.reverseRecOn with
  | nil => cases hk
  | append_singleton l j ih =>
    rw [List.foldl_append, List.foldl_cons, List.foldl_nil]
    by_cases hj : j = k
    · rw [if_pos ((hP j (by simp)).mpr hj), hj]
    · rw [if_neg (mt (hP j (by simp)).mp hj)]
      refine ih ?_ fun i hi => hP i (List.mem_append_left _ hi)
      simpa [Ne.symm hj] using hk

section
variable {poly : Poly} (hp : FieldPoly poly)
include hp

/-- The closed form of the filled part of `EXP` (40 R110). -/
theorem FieldPoly.expEntry_eq {k : Nat} (hk : k ≤ 510) : expEntry poly k = expValue poly k := by
  unfold expEntry
  split_ifs with h254 h255 h509 h510
  · rfl
  · rw [h255, hp.expValue_255, expValue]
  · exact hp.expValue_mod k
  · rw [h510, ← hp.expValue_mod, expValue]
  · omega

/-- The closed form of `LOG` above entry 1 (40 R110): only round `k` of 40 R106 writes the entry of the `k`-th power. -/
theorem FieldPoly.logEntry_expValue (one : LogOfOne) {k : Nat} (hpos : 1 ≤ k) (hk : k ≤ 254) :
    logEntry poly one (expValue poly k).toNat = BitVec.ofNat 16 k := by
  have hne0 : (expValue poly k).toNat ≠ 0 := fun h => hp.expValue_ne_zero k (BitVec.eq_of_toNat_eq h)
  have hne1 : (expValue poly k).toNat ≠ 1 := fun h => hp.expValue_ne_one hpos hk (BitVec.eq_of_toNat_eq h)
  rw [logEntry, if_neg hne0, if_neg hne1]
  refine foldl_ite_eq _ _ (List.mem_range'_1.mpr ⟨hpos, by omega⟩) fun j hj => ?_
  obtain ⟨-, hj⟩ := List.mem_range'_1.mp hj
  rw [← BitVec.toNat_eq, hp.expValue_injOn.eq_iff] <;> simp <;> omega

end

/-! ### The built tables -/

section
variable {p : Params} (hp : catalogOk p = true)

theorem logAt_built_zero (p : Params) : logAt (buildTables p).log 0 = 512 := logAt_built p 0

theorem logAt_built_one (p : Params) : logAt (buildTables p).log 1 = logOfOneValue p.logOfOne := logAt_built p 1

theorem logOfOneValue_toNat_eq_zero_iff {one : LogOfOne} : (logOfOneValue one).toNat = 0 ↔ one = .zero := by
  cases one <;> decide

theorem logOfOneValue_toNat_eq_255_iff {one : LogOfOne} : (logOfOneValue one).toNat = 255 ↔ one = .twoFiftyFive := by
  cases one <;> decide

/-- Entries 511 and up of `EXP` are 0 (40 R109). -/
theorem expAt_built_high (p : Params) {k : Nat} (hlo : 511 ≤ k) (hhi : k ≤ 1019) : expAt (buildTables p).exp k = 0 := by
  rw [expAt_built p (by omega), expEntry, if_neg (by omega), if_neg (by omega), if_neg (by omega), if_neg (by omega)]

include hp

theorem expAt_built_low {k : Nat} (hk : k ≤ 510) : expAt (buildTables p).exp k = expValue (polyOf p) k := by
  rw [expAt_built p (by omega), (polyOf_fieldPoly hp).expEntry_eq hk]

theorem logAt_built_expValue {k : Nat} (hpos : 1 ≤ k) (hk : k ≤ 254) :
    (logAt (buildTables p).log (expValue (polyOf p) k)).toNat = k := by
  rw [logAt_built, (polyOf_fieldPoly hp).logEntry_expValue _ hpos hk, BitVec.toNat_ofNat]
  omega

/-- The logarithm of a nonzero byte: P5 for 1, and for another the one exponent in 1..254 (40 R110). -/
theorem logAt_built_cases {x : Byte} (hx : x ≠ 0) :
    (x = 1 ∧ logAt (buildTables p).log x = logOfOneValue p.logOfOne) ∨
    (∃ k, 1 ≤ k ∧ k ≤ 254 ∧ (logAt (buildTables p).log x).toNat = k ∧ expValue (polyOf p) k = x) := by
  obtain ⟨k, hk, rfl⟩ := (polyOf_fieldPoly hp).exists_expValue hx
  obtain rfl | hpos := Nat.eq_zero_or_pos k
  · exact .inl ⟨rfl, logAt_built_one p⟩
  · exact .inr ⟨k, hpos, by omega, logAt_built_expValue hp hpos (by omega), rfl⟩

/-- With P5 = 0 the logarithm of 1 is 0, so no nonzero byte has the logarithm 255 (90 C1). -/
theorem logAt_built_le_254 (hone : p.logOfOne = .zero) {x : Byte} (hx : x ≠ 0) :
    (logAt (buildTables p).log x).toNat ≤ 254 := by
  obtain ⟨-, hlog⟩ | ⟨k, -, hk, hlog, -⟩ := logAt_built_cases hp hx
  · rw [hlog, logOfOneValue_toNat_eq_zero_iff.mpr hone]
    decide
  · rwa [hlog]

/-- With P5 = 255 the logarithm of 1 is 255, so no nonzero byte has the logarithm 0 (90 C1). -/
theorem logAt_built_bounds_of_255 (hone : p.logOfOne = .twoFiftyFive) {x : Byte} (hx : x ≠ 0) :
    1 ≤ (logAt (buildTables p).log x).toNat ∧ (logAt (buildTables p).log x).toNat ≤ 255 := by
  obtain ⟨-, hlog⟩ | ⟨k, hpos, hk, hlog, -⟩ := logAt_built_cases hp hx
  · rw [hlog, logOfOneValue_toNat_eq_255_iff.mpr hone]
    decide
  · omega

theorem logAt_built_le {x : Byte} (hx : x ≠ 0) : (logAt (buildTables p).log x).toNat ≤ 255 := by
  cases hone : p.logOfOne with
  | zero => exact (logAt_built_le_254 hp hone hx).trans (by decide)
  | twoFiftyFive => exact (logAt_built_bounds_of_255 hp hone hx).2

theorem eq_one_of_logAt_built_eq_255 {x : Byte} (hx : x ≠ 0) (h : (logAt (buildTables p).log x).toNat = 255) : x = 1 := by
  obtain ⟨hx1, -⟩ | ⟨k, -, hk, hlog, -⟩ := logAt_built_cases hp hx
  · exact hx1
  · omega

/-- The logarithm of a nonzero byte is an exponent of it, under both values of P5. -/
theorem expValue_logAt_built {x : Byte} (hx : x ≠ 0) :
    expValue (polyOf p) (logAt (buildTables p).log x).toNat = x := by
  obtain ⟨rfl, hlog⟩ | ⟨k, -, -, hlog, hk⟩ := logAt_built_cases hp hx
  · rw [hlog]
    cases p.logOfOne with
    | zero => rfl
    | twoFiftyFive => exact (polyOf_fieldPoly hp).expValue_255
  · rw [hlog, hk]

theorem expAt_logAt_built {x : Byte} (hx : x ≠ 0) :
    expAt (buildTables p).exp (logAt (buildTables p).log x).toNat = x := by
  have hle := logAt_built_le hp hx
  rw [expAt_built_low hp (by omega), expValue_logAt_built hp hx]

/-- `MUL` holds the reference products (40 R111). -/
theorem mulAt_built_eq_gfmul (y x : Byte) : pairAt (buildTables p).mul y x = gfmul (polyOf p) x y := by
  have hpoly := polyOf_fieldPoly hp
  rw [mulAt_built]
  split_ifs with h
  · obtain rfl | rfl := h
    · rw [gfmul_zero_right hpoly.top]
    · rw [gfmul_zero_left hpoly.top]
  · obtain ⟨hy, hx⟩ := not_or.mp h
    have hly := logAt_built_le hp hy
    have hlx := logAt_built_le hp hx
    rw [expAt_built_low hp (by omega), ← gfmul_expValue_expValue hpoly.top, expValue_logAt_built hp hx,
      expValue_logAt_built hp hy]

/-- `DIV` holds the quotients (40 R111). -/
theorem gfmul_divAt_built {y : Byte} (hy : y ≠ 0) (x : Byte) :
    gfmul (polyOf p) y (pairAt (buildTables p).div y x) = x := by
  have hpoly := polyOf_fieldPoly hp
  rw [divAt_built]
  by_cases hx : x = 0
  · rw [if_pos (.inr hx), gfmul_zero_right hpoly.top, hx]
  · have hly := logAt_built_le hp hy
    have hlx := logAt_built_le hp hx
    have hexp : (logAt (buildTables p).log y).toNat +
        ((logAt (buildTables p).log x).toNat + (255 - (logAt (buildTables p).log y).toNat)) =
        (logAt (buildTables p).log x).toNat + 255 := by omega
    rw [if_neg (not_or.mpr ⟨hy, hx⟩), expAt_built_low hp (by omega)]
    nth_rw 1 [← expValue_logAt_built hp hy]
    rw [gfmul_expValue_expValue hpoly.top, hexp, hpoly.expValue_add_255, expValue_logAt_built hp hx]

theorem gfmul_invAt_built {x : Byte} (hx : x ≠ 0) : gfmul (polyOf p) x (invAt (buildTables p).inv x) = 1 := by
  rw [invAt_built, gfmul_divAt_built hp hx]

end

/-! ### `INIT` once `ARG` is written -/

theorem State.firstUnwritten_of_written {s : State} {r : OperandReg} (h : s.written.get r = true) :
    s.firstUnwritten [r] = none := by
  simp [State.firstUnwritten, h]

section
variable {s : State} (hw : s.written.arg = true)
include hw

theorem exec_init_wrongVersion (harg : s.regs.arg ≠ s.params.engineVersion) :
    exec .init s = .next (s.complete .versionMismatch) := by
  simp [exec, execInit, State.firstUnwritten_of_written (r := .arg) hw, harg]

theorem exec_init_again (harg : s.regs.arg = s.params.engineVersion) (hdone : s.ctx.initDone = true) :
    exec .init s = .next (s.complete .ok) := by
  simp [exec, execInit, State.firstUnwritten_of_written (r := .arg) hw, harg, hdone]

theorem exec_init_bigEndian (harg : s.regs.arg = s.params.engineVersion) (hdone : s.ctx.initDone = false)
    (hbig : s.params.hostLittleEndian = false) : exec .init s = .next (s.complete .unsupportedByteOrder) := by
  simp [exec, execInit, State.firstUnwritten_of_written (r := .arg) hw, harg, hdone, hbig]

/-- The build path of `INIT` (40 R101, R102). -/
theorem exec_init_builds (harg : s.regs.arg = s.params.engineVersion) (hdone : s.ctx.initDone = false)
    (hlittle : s.params.hostLittleEndian = true) (hcat : catalogOk s.params = true) :
    exec .init s = .next ((s.setCtx (builtContext s.params)).complete .ok) := by
  simp [exec, execInit, State.firstUnwritten_of_written (r := .arg) hw, harg, hdone, hlittle, hcat, builtContext]

end

/-- In a state that meets the invariant, `INIT_DONE` = 1 says that the context is the one built from a valid catalog. -/
theorem ctx_eq_builtContext {s : State} (h : Inv s) (hdone : s.ctx.initDone = true) :
    catalogOk s.params = true ∧ s.ctx = builtContext s.params := by
  obtain ⟨-, hctx | hbuilt⟩ := h
  · rw [hctx, unpopulated_initDone] at hdone
    cases hdone
  · exact hbuilt

/-! ### The obligations -/

/-- Settles O16: the catalog entry doubled plus one, at the index 40 R103 gives. -/
theorem polynomialSelection : Obligations.PolynomialSelection := by
  refine ⟨fun p => ⟨fun k hk => ?inside, fun hout => ?outside, fun hcat => ?bits⟩, fun s hw harg hdone hlittle hcat => ?init⟩
  case inside => exact polyOf_toNat (hk ▸ selectIndex_inside k)
  case outside => exact polyOf_toNat (selectIndex_outside hout)
  case bits => exact ⟨(polyOf_fieldPoly hcat).top, catalogPoly_getLsbD_zero _⟩
  case init => exact ⟨_, exec_init_builds hw harg hdone hlittle hcat, rfl, rfl⟩

/-- Settles O18: the powers of the reference multiplication are the builder's doublings, and they are distinct below the order. -/
theorem expLogClosedForm : Obligations.ExpLogClosedForm := by
  intro p hcat
  have hpoly := polyOf_fieldPoly hcat
  have hlog : ∀ x : Byte, 2 ≤ x.toNat →
      ∃ k, 1 ≤ k ∧ k ≤ 254 ∧ (logAt (buildTables p).log x).toNat = k ∧ expValue (polyOf p) k = x := by
    intro x hx
    have hx0 : x ≠ 0 := by rintro rfl; exact absurd hx (by decide)
    obtain ⟨rfl, -⟩ | h := logAt_built_cases hcat hx0
    · exact absurd hx (by decide)
    · exact h
  simp only [buildTables_poly, ge_eq_expValue hpoly.top]
  refine ⟨fun k hk => ?low, fun k => expAt_built_high p, logAt_built_zero p, logAt_built_one p, fun x hx k hpos hk => ?exponent,
    fun x hx => ?range⟩
  case low => rw [expAt_built_low hcat hk, hpoly.expValue_mod]
  case exponent =>
    obtain ⟨j, -, -, hj, rfl⟩ := hlog x hx
    constructor
    · intro h
      rw [← h, hj]
    · intro h
      rw [← h, logAt_built_expValue hcat hpos hk]
  case range =>
    obtain ⟨k, hpos, hk, hx, -⟩ := hlog x hx
    omega

/-- Settles O19: the logarithms are at most 255, and adding and subtracting them multiplies and divides the powers. -/
theorem multiplyDivideTables : Obligations.MultiplyDivideTables := by
  intro p hcat
  refine ⟨fun x => ?row, fun y => ?column, fun y x hy hx => ?entry, mulAt_built_eq_gfmul hcat,
    fun y x hy => gfmul_divAt_built hcat hy x⟩
  case row => simp [mulAt_built, divAt_built]
  case column => simp [mulAt_built, divAt_built]
  case entry =>
    have hly := logAt_built_le hcat hy
    have hlx := logAt_built_le hcat hx
    have hnot : ¬(y = 0 ∨ x = 0) := not_or.mpr ⟨hy, hx⟩
    refine ⟨by rw [mulAt_built, if_neg hnot], by rw [divAt_built, if_neg hnot], hly, by omega, ?difference, fun hone => ?zero,
      fun hsum => ⟨eq_one_of_logAt_built_eq_255 hcat hx (by omega), eq_one_of_logAt_built_eq_255 hcat hy (by omega)⟩⟩
    case difference =>
      cases hone : p.logOfOne with
      | zero =>
        have := logAt_built_le_254 hcat hone hx
        omega
      | twoFiftyFive =>
        have := (logAt_built_bounds_of_255 hcat hone hy).1
        omega
    case zero =>
      have := logAt_built_le_254 hcat hone hx
      have := logAt_built_le_254 hcat hone hy
      omega

/-- Settles O21: `INV` is the column 1 of `DIV`. -/
theorem inverseTable : Obligations.InverseTable := by
  intro p hcat
  have hzero : pairAt (buildTables p).div 0 1 = 0 := by simp [divAt_built]
  exact ⟨invAt_built p, (invAt_built p 0).trans hzero, hzero, fun x hx => gfmul_invAt_built hcat hx⟩

/-- Settles O22, by the products and the closed form of the built tables. -/
theorem tableInvariantsAfterInit : Obligations.TableInvariantsAfterInit := by
  intro s hinv hdone
  obtain ⟨hcat, hctx⟩ := ctx_eq_builtContext hinv hdone
  have hpoly := polyOf_fieldPoly hcat
  simp only [hctx, builtContext_mul, builtContext_inv, builtContext_log, builtContext_exp, mulAt_built_eq_gfmul hcat]
  refine ⟨fun x y => hpoly.gfmul_comm x y, fun y => gfmul_zero_left hpoly.top y, fun x hx => gfmul_invAt_built hcat hx,
    fun k hpos hk => ?_, ?_⟩
  · rw [Nat.mod_eq_of_lt (by omega), expAt_built_low hcat (by omega), logAt_built_expValue hcat hpos hk]
  · rw [expAt_built_low hcat (by omega), expValue, logAt_built_one, logOfOneValue_toNat_eq_zero_iff]

/-- Settles O23: the table's products are the reference multiplication's, whose laws hold for every primitive polynomial. -/
theorem fieldLawsAfterInit : Obligations.FieldLawsAfterInit := by
  intro s hinv hdone
  obtain ⟨hcat, hctx⟩ := ctx_eq_builtContext hinv hdone
  have hpoly := polyOf_fieldPoly hcat
  simp only [hctx, builtContext_mul, builtContext_log, builtContext_exp, mulAt_built_eq_gfmul hcat]
  refine ⟨fun x y => hpoly.gfmul_comm x y, fun x y z => (hpoly.gfmul_assoc x y z).symm, fun x y z => gfmul_xor_right hpoly.top x y z,
    fun x => ?one, fun x => gfmul_zero_right hpoly.top x, fun x hx => expAt_logAt_built hcat hx⟩
  case one => rw [hpoly.gfmul_comm, gfmul_one_left hpoly.top]

/-- Settles O13: the checks of 40 R101 in order, each with its premises. -/
theorem initOutcomesInOrder : Obligations.InitOutcomesInOrder := by
  intro s hw
  exact ⟨exec_init_wrongVersion hw, exec_init_again hw, exec_init_bigEndian hw, exec_init_builds hw⟩

end Sys2Proof.Machine
end

section
/-! PROOFS of the family 41_field_lookups: the value each lookup command answers, that value after `INIT` in terms of the reference
multiplication and the powers of 2, the fields of an encoded word as 30 R73 to R76 list them, and the obligations O25 to O31. -/

namespace Sys2Proof

/-! ### The fields of a command word -/

/-- With bits 7:5 reserved and 0, the low byte of a word is its operation code. -/
theorem lowByte_eq_fieldOp {w : Word} (h : w.extractLsb' 5 3 = 0) : w.extractLsb' 0 8 = (fieldOp w).zeroExtend 8 := by
  refine BitVec.eq_of_getLsbD_eq fun k hk => ?_
  by_cases hop : k < 5
  · simp [fieldOp, hop, hk]
  · simpa [fieldOp, hop, hk] using extractLsb'_eq_zero_iff.mp h k (by omega) (by omega)

/-- Format S, field by field (30 R74). -/
theorem encodeS_fields (op : BitVec 5) (x : Byte) :
    (encodeS op x).extractLsb' 0 8 = op.zeroExtend 8 ∧ (encodeS op x).extractLsb' 8 8 = x ∧
      (encodeS op x).extractLsb' 16 16 = 0 := by
  obtain ⟨hlow, hhigh⟩ : ReservedClear (encodeS op x) .s := by
    rw [← masked_eq_iff_reservedClear, fieldOp_encodeS, encodeS_masked]
  exact ⟨by rw [lowByte_eq_fieldOp hlow, fieldOp_encodeS], fieldX_encodeS op x, hhigh⟩

/-- Format P, field by field (30 R75). -/
theorem encodeP_fields (op : BitVec 5) (x y : Byte) :
    (encodeP op x y).extractLsb' 0 8 = op.zeroExtend 8 ∧ (encodeP op x y).extractLsb' 8 8 = x ∧
      (encodeP op x y).extractLsb' 16 8 = y ∧ (encodeP op x y).extractLsb' 24 8 = 0 := by
  obtain ⟨hlow, hhigh⟩ : ReservedClear (encodeP op x y) .p := by
    rw [← masked_eq_iff_reservedClear, fieldOp_encodeP, encodeP_masked]
  exact ⟨by rw [lowByte_eq_fieldOp hlow, fieldOp_encodeP], fieldX_encodeP op x y, fieldY_encodeP op x y, hhigh⟩

/-- Format T, field by field (30 R76). -/
theorem encodeT_fields (op : BitVec 5) (i : BitVec 10) :
    (encodeT op i).extractLsb' 0 8 = op.zeroExtend 8 ∧ (encodeT op i).extractLsb' 8 10 = i ∧
      (encodeT op i).extractLsb' 18 14 = 0 := by
  obtain ⟨hlow, hhigh⟩ : ReservedClear (encodeT op i) .t := by
    rw [← masked_eq_iff_reservedClear, fieldOp_encodeT, encodeT_masked]
  exact ⟨by rw [lowByte_eq_fieldOp hlow, fieldOp_encodeT], fieldIdx_encodeT op i, hhigh⟩

end Sys2Proof

namespace Sys2Proof.Machine

theorem illegalWord_encode_exprd {k : BitVec 10} (hk : 1020 ≤ k.toNat) : IllegalWord (encode (.exprd k)) := by
  have hop : ((encode (.exprd k)).extractLsb' 0 5).toNat = 0x0C := congrArg BitVec.toNat (fieldOp_encodeT 0x0C k)
  have hidx : (encode (.exprd k)).extractLsb' 8 10 = k := fieldIdx_encodeT 0x0C k
  exact .inr (.inr (.inr (.inr (.inr ⟨hop, .inr (.inr (hidx.symm ▸ hk))⟩))))

/-! ### What each lookup answers -/

section
variable (s : State)

theorem exec_gfadd (x y : Byte) : exec (.gfadd x y) s = answer ((x ^^^ y).zeroExtend 32) s := rfl
theorem exec_gfmul (x y : Byte) : exec (.gfmul x y) s = answer ((pairAt s.ctx.mul y x).zeroExtend 32) s := rfl
theorem exec_gfdiv (x y : Byte) : exec (.gfdiv x y) s = answer ((pairAt s.ctx.div y x).zeroExtend 32) s := rfl
theorem exec_gfinv (x : Byte) : exec (.gfinv x) s = answer ((invAt s.ctx.inv x).zeroExtend 32) s := rfl
theorem exec_logrd (x : Byte) : exec (.logrd x) s = answer ((logAt s.ctx.log x).zeroExtend 32) s := rfl

theorem exec_exprd {k : BitVec 10} (hk : k.toNat < 1020) :
    exec (.exprd k) s = answer ((expAt s.ctx.exp k.toNat).zeroExtend 32) s :=
  if_pos hk

end

/-- The value a lookup command reads in a field context, in the width of the widest entry (41 R141 to R146). -/
def lookupValue (i : Instr) (c : FieldContext) : Half :=
  match i with
  | .gfadd x y => (x ^^^ y).zeroExtend 16
  | .gfmul x y => (pairAt c.mul y x).zeroExtend 16
  | .gfdiv x y => (pairAt c.div y x).zeroExtend 16
  | .gfinv x => (invAt c.inv x).zeroExtend 16
  | .exprd k => (expAt c.exp k.toNat).zeroExtend 16
  | .logrd x => logAt c.log x
  | _ => 0

theorem zeroExtend_half (b : Byte) : (b.zeroExtend 16 : Half).zeroExtend 32 = b.zeroExtend 32 :=
  BitVec.setWidth_setWidth (by decide)

/-- A lookup that has a command word answers its value, zero-extended (41 R140). -/
theorem exec_eq_answer_lookupValue {i : Instr} (h : isLookup i = true) (hwf : i.wf = true) (s : State) :
    exec i s = answer ((lookupValue i s.ctx).zeroExtend 32) s := by
  cases i with
  | gfadd x y => rw [exec_gfadd, lookupValue, zeroExtend_half]
  | gfmul x y => rw [exec_gfmul, lookupValue, zeroExtend_half]
  | gfdiv x y => rw [exec_gfdiv, lookupValue, zeroExtend_half]
  | gfinv x => rw [exec_gfinv, lookupValue, zeroExtend_half]
  | exprd k => rw [exec_exprd s (of_decide_eq_true hwf), lookupValue, zeroExtend_half]
  | logrd x => rw [exec_logrd, lookupValue]
  | _ => cases h

/-- The value depends on the table the command's rule names alone. -/
theorem lookupValue_congr {i : Instr} {c c' : FieldContext} (h : SameNamedTable i c c') :
    lookupValue i c = lookupValue i c' := by
  cases i with
  | gfmul x y | gfdiv x y | gfinv x | exprd k | logrd x =>
    unfold SameNamedTable at h
    simp only [lookupValue, h]
  | _ => rfl

theorem lookupValue_unpopulated {i : Instr} (h : ∀ x y, i ≠ .gfadd x y) : lookupValue i FieldContext.unpopulated = 0 := by
  cases i with
  | gfadd x y => exact absurd rfl (h x y)
  | gfmul x y | gfdiv x y | gfinv x | exprd k | logrd x => simp [lookupValue]
  | _ => rfl

/-- Before `INIT` every lookup but `GFADD` answers 0 (41 R140). -/
theorem exec_lookup_unpopulated {i : Instr} {s : State} (h : isLookup i = true) (hwf : i.wf = true)
    (hadd : ∀ x y, i ≠ .gfadd x y) (hctx : s.ctx = FieldContext.unpopulated) : exec i s = answer 0 s := by
  rw [exec_eq_answer_lookupValue h hwf, hctx, lookupValue_unpopulated hadd]
  rfl

/-! ### Multiplication by a nonzero byte can be undone -/

theorem expValue_eq_twoPow (poly : Poly) {k : Nat} (hk : k < 8) : expValue poly k = BitVec.twoPow 8 k :=
  (expValue_eq_iterate poly k).trans (iterate_double_one poly hk)

/-- A byte below 0x80 doubles without a reduction, under every polynomial. -/
theorem gfmul_two_of_msb_false {poly : Poly} (htop : poly.getLsbD 8 = true) {a : Byte} (ha : a.msb = false) :
    gfmul poly a 2 = a <<< 1 := by
  rw [gfmul_two htop, double_eq, ha]
  exact BitVec.xor_zero

section
variable {poly : Poly} (hp : FieldPoly poly)
include hp

theorem FieldPoly.gfmul_one_right (a : Byte) : gfmul poly a 1 = a := by
  rw [hp.gfmul_comm, gfmul_one_left hp.top]

/-- The power of 2 with the exponent `255 - k` undoes multiplication by the one with the exponent `k`. -/
theorem FieldPoly.gfmul_injective {y : Byte} (hy : y ≠ 0) : Function.Injective (gfmul poly y) := by
  obtain ⟨k, hk, rfl⟩ := hp.exists_expValue hy
  have hundo : Function.LeftInverse (gfmul poly (expValue poly (255 - k))) (gfmul poly (expValue poly k)) := fun a => by
    rw [← hp.gfmul_assoc, gfmul_expValue_expValue hp.top, Nat.sub_add_cancel hk.le, hp.expValue_255, gfmul_one_left hp.top]
  exact hundo.injective

end

/-! ### What each lookup answers after `INIT` -/

section
variable {s : State} (hinv : Inv s) (hdone : s.ctx.initDone = true)
include hinv hdone

theorem ctx_fieldPoly : FieldPoly s.ctx.poly := by
  obtain ⟨hcat, hctx⟩ := ctx_eq_builtContext hinv hdone
  rw [hctx]
  exact polyOf_fieldPoly hcat

/-- `GFMUL` answers the reference product (41 R142, R148). -/
theorem exec_gfmul_ready (x y : Byte) : exec (.gfmul x y) s = answer ((gfmul s.ctx.poly x y).zeroExtend 32) s := by
  obtain ⟨hcat, hctx⟩ := ctx_eq_builtContext hinv hdone
  rw [exec_gfmul, hctx, builtContext_mul, builtContext_poly, mulAt_built_eq_gfmul hcat]

/-- `GFDIV` answers the one `q` whose product with the divisor is the dividend (41 R143). -/
theorem exec_gfdiv_ready {x y q : Byte} (hy : y ≠ 0) (hq : gfmul s.ctx.poly y q = x) :
    exec (.gfdiv x y) s = answer (q.zeroExtend 32) s := by
  obtain ⟨hcat, hctx⟩ := ctx_eq_builtContext hinv hdone
  rw [hctx, builtContext_poly] at hq
  have hquot : pairAt (buildTables s.params).div y x = q :=
    (polyOf_fieldPoly hcat).gfmul_injective hy ((gfmul_divAt_built hcat hy x).trans hq.symm)
  rw [exec_gfdiv, hctx, builtContext_div, hquot]

/-- Row 0 and column 0 of `DIV` are 0, so division by zero answers 0 (40 R111, 41 R143). -/
theorem exec_gfdiv_zero {x y : Byte} (h : y = 0 ∨ x = 0) : exec (.gfdiv x y) s = answer 0 s := by
  obtain ⟨-, hctx⟩ := ctx_eq_builtContext hinv hdone
  rw [exec_gfdiv, hctx, builtContext_div, divAt_built, if_pos h]
  rfl

/-- `GFINV` answers what `GFDIV` answers for the dividend 1 (40 R112, 41 R144). -/
theorem exec_gfinv_eq_gfdiv (x : Byte) : exec (.gfinv x) s = exec (.gfdiv 1 x) s := by
  obtain ⟨-, hctx⟩ := ctx_eq_builtContext hinv hdone
  rw [exec_gfinv, exec_gfdiv, hctx, builtContext_inv, builtContext_div, invAt_built]

/-- `EXPRD` answers the power of 2 in the filled part of `EXP` (40 R110, 41 R145). -/
theorem exec_exprd_low {k : BitVec 10} (hk : k.toNat ≤ 510) :
    exec (.exprd k) s = answer ((expValue s.ctx.poly k.toNat).zeroExtend 32) s := by
  obtain ⟨hcat, hctx⟩ := ctx_eq_builtContext hinv hdone
  rw [exec_exprd s (by omega), hctx, builtContext_exp, builtContext_poly, expAt_built_low hcat hk]

theorem exec_exprd_high {k : BitVec 10} (hlo : 511 ≤ k.toNat) (hhi : k.toNat ≤ 1019) : exec (.exprd k) s = answer 0 s := by
  obtain ⟨-, hctx⟩ := ctx_eq_builtContext hinv hdone
  rw [exec_exprd s (by omega), hctx, builtContext_exp, expAt_built_high s.params hlo hhi]
  rfl

/-- Only the exponent modulo 255 counts (40 R110). -/
theorem exec_exprd_mod {k : BitVec 10} (hk : k.toNat ≤ 510) :
    exec (.exprd k) s = exec (.exprd (BitVec.ofNat 10 (k.toNat % 255))) s := by
  have hmod : (BitVec.ofNat 10 (k.toNat % 255)).toNat = k.toNat % 255 := by
    rw [BitVec.toNat_ofNat, Nat.mod_eq_of_lt (by omega)]
  rw [exec_exprd_low hinv hdone hk, exec_exprd_low hinv hdone (by omega), hmod, (ctx_fieldPoly hinv hdone).expValue_mod]

theorem exec_logrd_zero : exec (.logrd 0) s = answer 512 s := by
  obtain ⟨-, hctx⟩ := ctx_eq_builtContext hinv hdone
  rw [exec_logrd, hctx, builtContext_log, logAt_built_zero]
  rfl

theorem exec_logrd_one : exec (.logrd 1) s = answer ((logOfOneValue s.params.logOfOne).zeroExtend 32) s := by
  obtain ⟨-, hctx⟩ := ctx_eq_builtContext hinv hdone
  rw [exec_logrd, hctx, builtContext_log, logAt_built_one]

/-- `LOGRD` answers the exponent of a power of 2 other than 1 (40 R110, 41 R146). -/
theorem exec_logrd_expValue {k : Nat} {x : Byte} (hpos : 1 ≤ k) (hk : k ≤ 254) (hx : expValue s.ctx.poly k = x) :
    exec (.logrd x) s = answer (BitVec.ofNat 32 k) s := by
  obtain ⟨hcat, hctx⟩ := ctx_eq_builtContext hinv hdone
  subst hx
  rw [hctx, builtContext_poly, exec_logrd, hctx, builtContext_log]
  congr 1
  refine BitVec.eq_of_toNat_eq ?_
  rw [BitVec.zeroExtend_eq_setWidth, BitVec.toNat_setWidth, logAt_built_expValue hcat hpos hk, BitVec.toNat_ofNat]

end

/-! ### The obligations -/

/-- Settles O27: after `INIT` the command answers the reference product, and the corner cases are its laws. -/
theorem gfmulReadsMulTable : Obligations.GfmulReadsMulTable := by
  refine ⟨fun x y s => exec_gfmul s x y, fun x y s hctx => exec_lookup_unpopulated rfl rfl nofun hctx,
    fun s hinv hdone => ?_, fun x y => ⟨_, rfl, encodeP_fields 0x09 x y⟩⟩
  have hpoly := ctx_fieldPoly hinv hdone
  have hprod := exec_gfmul_ready hinv hdone
  refine ⟨fun x y h => ?zero, fun y => ?oneLeft, fun x => ?oneRight, fun x y => ?comm, ?noReduction, fun h14D => ?reduction⟩
  case zero =>
    obtain rfl | rfl := h
    · rw [hprod, gfmul_zero_left hpoly.top]; rfl
    · rw [hprod, gfmul_zero_right hpoly.top]; rfl
  case oneLeft => rw [hprod, gfmul_one_left hpoly.top]; rfl
  case oneRight => rw [hprod, hpoly.gfmul_one_right]; rfl
  case comm => rw [hprod, hprod, hpoly.gfmul_comm]
  case noReduction => rw [hprod, gfmul_two_of_msb_false hpoly.top (by decide)]; rfl
  case reduction => rw [hprod, h14D]; rfl

/-- Settles O28: a quotient is answered because its product with the divisor is the dividend. -/
theorem gfdivReadsDivTable : Obligations.GfdivReadsDivTable := by
  refine ⟨fun x y s => exec_gfdiv s x y, fun x y s hctx => exec_lookup_unpopulated rfl rfl nofun hctx,
    fun s hinv hdone => ?_, fun x y => ⟨_, rfl, encodeP_fields 0x0A x y⟩⟩
  have hpoly := ctx_fieldPoly hinv hdone
  refine ⟨fun x => exec_gfdiv_zero hinv hdone (.inl rfl), fun y => exec_gfdiv_zero hinv hdone (.inr rfl),
    fun x => ?one, fun x hx => ?self, ?noReduction, fun h14D => ?reduction⟩
  case one => exact exec_gfdiv_ready hinv hdone (by decide) (gfmul_one_left hpoly.top x)
  case self => exact exec_gfdiv_ready hinv hdone hx (hpoly.gfmul_one_right x)
  case noReduction =>
    refine exec_gfdiv_ready hinv hdone (q := 0x53) (by decide) ?_
    rw [hpoly.gfmul_comm, gfmul_two_of_msb_false hpoly.top (by decide)]
    rfl
  case reduction => exact exec_gfdiv_ready hinv hdone (q := 0xA6) (by decide) (by rw [h14D]; rfl)

/-- Settles O29: the inverse is the quotient of 1. -/
theorem gfinvReadsInverseTable : Obligations.GfinvReadsInverseTable := by
  refine ⟨fun x s => exec_gfinv s x, fun x s hctx => exec_lookup_unpopulated rfl rfl nofun hctx,
    fun s hinv hdone => ?_, fun x => ⟨_, rfl, encodeS_fields 0x0B x⟩⟩
  have hpoly := ctx_fieldPoly hinv hdone
  simp only [exec_gfinv_eq_gfdiv hinv hdone]
  refine ⟨exec_gfdiv_zero hinv hdone (.inl rfl), exec_gfdiv_ready hinv hdone (by decide) (gfmul_one_left hpoly.top 1),
    fun h14D => ⟨?two, ?example53⟩⟩
  case two => exact exec_gfdiv_ready hinv hdone (q := 0xA6) (by decide) (by rw [h14D]; rfl)
  case example53 => exact exec_gfdiv_ready hinv hdone (q := 0x04) (by decide) (by rw [h14D]; rfl)

/-- Settles O30: the filled part of `EXP` holds the powers of 2, whose period is 255. -/
theorem exprdReadsExpTable : Obligations.ExprdReadsExpTable := by
  refine ⟨fun k s hk => exec_exprd s hk, fun k hk => illegalWord_encode_exprd hk,
    fun k s hk hctx => exec_lookup_unpopulated rfl (decide_eq_true hk) nofun hctx,
    fun s hinv hdone => ?_, fun k => ⟨_, rfl, encodeT_fields 0x0C k⟩⟩
  have hzero : exec (.exprd 0) s = answer 1 s := exec_exprd_low hinv hdone (by decide)
  refine ⟨fun k hk => ?one, fun k => exec_exprd_high hinv hdone, fun k => exec_exprd_mod hinv hdone, ?seven, fun h14D => ?eight⟩
  case one =>
    obtain rfl | rfl | rfl := hk
    · exact hzero
    · exact (exec_exprd_mod hinv hdone (by decide)).trans hzero
    · exact (exec_exprd_mod hinv hdone (by decide)).trans hzero
  case seven =>
    rw [exec_exprd_low hinv hdone (by decide), expValue_eq_twoPow _ (by decide)]
    rfl
  case eight =>
    rw [exec_exprd_low hinv hdone (by decide), h14D]
    rfl

/-- Settles O31: `LOG` holds the exponents of the powers of 2; under 0x14D, 0x53 is the inverse of 4, so its exponent is 255 - 2. -/
theorem logrdReadsLogTable : Obligations.LogrdReadsLogTable := by
  refine ⟨fun x s => exec_logrd s x, fun x s hctx => exec_lookup_unpopulated rfl rfl nofun hctx,
    fun s hinv hdone => ?_, fun x => ⟨_, rfl, encodeS_fields 0x0D x⟩⟩
  have hpoly := ctx_fieldPoly hinv hdone
  refine ⟨exec_logrd_zero hinv hdone, fun hone => ?oneZero, fun hone => ?one255, ?two, fun h14D => ?example53⟩
  case oneZero =>
    rw [exec_logrd_one hinv hdone, hone]
    rfl
  case one255 =>
    rw [exec_logrd_one hinv hdone, hone]
    rfl
  case two => exact exec_logrd_expValue hinv hdone le_rfl (by decide) (expValue_eq_twoPow _ (by decide))
  case example53 =>
    rw [h14D] at hpoly
    have hinverse : gfmul 0x14D (expValue 0x14D 2) (expValue 0x14D 253) = gfmul 0x14D (expValue 0x14D 2) 0x53 := by
      rw [gfmul_expValue_expValue hpoly.top, hpoly.expValue_255]
      rfl
    refine exec_logrd_expValue hinv hdone (k := 253) (by decide) (by decide) ?_
    rw [h14D]
    exact hpoly.gfmul_injective (hpoly.expValue_ne_zero 2) hinverse

/-- Settles O25: the value is `lookupValue`, which reads the one table the command's rule names. -/
theorem lookupsCompleteInEveryState : Obligations.LookupsCompleteInEveryState :=
  ⟨fun i h hwf => ⟨lookupValue i, exec_eq_answer_lookupValue h hwf, fun _ _ => lookupValue_congr⟩,
    fun _ _ h hwf hadd hctx => exec_lookup_unpopulated h hwf hadd hctx⟩

/-- Settles O26, by the two laws of XOR with itself and with 0. -/
theorem gfaddXorsItsOperands : Obligations.GfaddXorsItsOperands := by
  refine ⟨fun x y s => exec_gfadd s x y, fun x s => ?self, fun x s => ?zero, fun s => exec_gfadd s 0x53 0xCA,
    fun x y => ⟨_, rfl, encodeP_fields 0x08 x y⟩⟩
  case self => rw [exec_gfadd, BitVec.xor_self]; rfl
  case zero => rw [exec_gfadd, show x ^^^ 0 = x from BitVec.xor_zero]; rfl

end Sys2Proof.Machine
end

section
/-! PROOFS of the family 42_buffer_ops: one lemma for each check of `runBuffer` that fails, the aliasing rule of each buffer command in
plain words, and the obligations O32 and O33. -/

namespace Sys2Proof.Machine

/-! ### The aliasing rules in plain words -/

theorem State.disjoint_iff_not_overlap {s : State} {p q : OperandReg} {n : Nat} :
    s.disjoint p q n = true ↔ ¬Overlap (s.addr p) (s.addr q) n := by
  rw [State.disjoint, Bool.not_eq_true', ← Bool.not_eq_true, overlaps_iff]

theorem State.identicalOrDisjoint_iff_not_overlap {s : State} {p q : OperandReg} {n : Nat} :
    s.identicalOrDisjoint p q n = true ↔ s.addr p = s.addr q ∨ ¬Overlap (s.addr p) (s.addr q) n := by
  rw [← State.disjoint_iff_not_overlap, State.identicalOrDisjoint, Bool.or_eq_true, beq_iff_eq, State.disjoint]

/-- A buffer command is `runBuffer` on its own buffers, with the aliasing rule `AliasAllowed` gives it. -/
theorem exec_of_isBuffer_aliasAllowed {i : Instr} (h : isBuffer i = true) :
    ∃ mayAlias body, exec i = runBuffer i (bufferOperands i) mayAlias body ∧
      ∀ s n, mayAlias s n = true ↔ AliasAllowed i s n := by
  cases i with
  | add | muladd k | mul k | swap => exact ⟨_, _, rfl, fun _ _ => State.disjoint_iff_not_overlap⟩
  | add2 =>
    refine ⟨_, _, by delta exec execAdd2; rfl, fun s n => ?_⟩
    exact (Bool.and_eq_true_iff).trans
      (and_congr State.identicalOrDisjoint_iff_not_overlap State.identicalOrDisjoint_iff_not_overlap)
  | addset =>
    refine ⟨_, _, by delta exec execAddset; rfl, fun s n => ?_⟩
    exact (Bool.and_eq_true_iff).trans (and_congr State.disjoint_iff_not_overlap State.disjoint_iff_not_overlap)
  | _ => cases h

/-! ### The checks that fail, in their order -/

/-- The register a fault names is the first whose buffer is not in range (60 R214). -/
theorem State.firstOutOfRange_append_cons {s : State} {before after : List OperandReg} {r : OperandReg} {n : Nat}
    (hbefore : AllInRange s before n) (hr : inRange s.params (s.addr r) n = false) :
    s.firstOutOfRange (before ++ r :: after) n = some r := by
  have hnone : s.firstOutOfRange before n = none := State.firstOutOfRange_eq_none.mpr hbefore
  unfold State.firstOutOfRange at hnone ⊢
  rw [List.find?_append, hnone, Option.none_or, List.find?_cons_of_pos (by simp [hr])]

section
variable {i : Instr} {bufs : List OperandReg} {mayAlias : State → Nat → Bool} {body : State → Nat → Memory → Memory}
  {s : State} (hw : AllWritten s (bufs ++ [.len]))
include hw

/-- Check 2 of 42 R170. -/
theorem runBuffer_preInit (hinit : s.ctx.initDone = false) :
    runBuffer i bufs mayAlias body s = .fault (.preInit (encode i)) := by
  simp [runBuffer, State.firstUnwritten_eq_none.mpr hw, hinit]

variable (hinit : s.ctx.initDone = true)
include hinit

/-- Check 3 of 42 R170. -/
theorem runBuffer_negativeLength (hneg : s.length < 0) :
    runBuffer i bufs mayAlias body s = .fault (.negativeLength (encode i) s.regs.len) := by
  simp [runBuffer, State.firstUnwritten_eq_none.mpr hw, hinit, hneg]

variable {n : Nat} (hn : s.length = n) (hpos : 0 < n)
include hn hpos

/-- Check 5 of 42 R170, reached with a length above 0. -/
theorem runBuffer_range {r : OperandReg} (hr : s.firstOutOfRange bufs n = some r) :
    runBuffer i bufs mayAlias body s = .fault (.range (encode i) r) := by
  have hneg : ¬(n : Int) < 0 := by omega
  simp [runBuffer, State.firstUnwritten_eq_none.mpr hw, hinit, hn, hneg, hpos.ne', hr]

/-- Checks 1 to 5 of 42 R170, as `BufferReady` lists them. -/
theorem bufferReady_of_allWritten (hrange : AllInRange s bufs n) : BufferReady s bufs n := by
  obtain ⟨hbufs, hlen⟩ := List.forall_mem_append.mp hw
  exact ⟨hbufs, hlen .len (List.mem_singleton_self _), hinit, hn, hpos, hrange⟩

end

/-- Check 6 of 42 R170, the last. -/
theorem runBuffer_aliasing {i : Instr} {bufs : List OperandReg} {mayAlias : State → Nat → Bool}
    {body : State → Nat → Memory → Memory} {s : State} {n : Nat} (h : BufferReady s bufs n) (ha : mayAlias s n = false) :
    runBuffer i bufs mayAlias body s = .fault (.aliasing (encode i)) := by
  obtain ⟨hbufs, hlen, hinit, hn, hpos, hrange⟩ := h
  have hw : AllWritten s (bufs ++ [.len]) := List.forall_mem_append.mpr ⟨hbufs, List.forall_mem_singleton.mpr hlen⟩
  have hneg : ¬(n : Int) < 0 := by omega
  simp [runBuffer, State.firstUnwritten_eq_none.mpr hw, hinit, hn, hneg, hpos.ne',
    State.firstOutOfRange_eq_none.mpr hrange, ha]

/-! ### A buffer command that reaches its last check -/

section
variable {i : Instr} (h : isBuffer i = true) {s : State} {n : Nat}
include h

theorem exec_buffer_aliasing (hready : BufferReady s (bufferOperands i) n) (ha : ¬AliasAllowed i s n) :
    exec i s = .fault (.aliasing (encode i)) := by
  obtain ⟨mayAlias, body, he, halias⟩ := exec_of_isBuffer_aliasAllowed h
  rw [he]
  exact runBuffer_aliasing hready (Bool.eq_false_iff.mpr (mt (halias s n).mp ha))

/-- With its checks passed a buffer command changes memory and sets `RC`. -/
theorem exec_buffer_completes (hready : BufferReady s (bufferOperands i) n) (ha : AliasAllowed i s n) :
    ∃ m, exec i s = .next ((s.setMem m).complete .ok) := by
  obtain ⟨mayAlias, body, he, halias⟩ := exec_of_isBuffer_aliasAllowed h
  exact ⟨body s n s.mem, by rw [he, runBuffer_ready _ _ _ _ _ hready ((halias s n).mpr ha)]⟩

theorem exec_buffer_aliasing_iff (hready : BufferReady s (bufferOperands i) n) :
    exec i s = .fault (.aliasing (encode i)) ↔ ¬AliasAllowed i s n := by
  refine ⟨fun hfault ha => ?_, exec_buffer_aliasing h hready⟩
  obtain ⟨m, hnext⟩ := exec_buffer_completes h hready ha
  rw [hnext] at hfault
  cases hfault

end

/-! ### The obligations -/

/-- Settles O32: every buffer command is `runBuffer`, which makes the checks in this order. -/
theorem bufferCheckOrder : Obligations.BufferCheckOrder := by
  intro i s h
  obtain ⟨mayAlias, body, he, -⟩ := exec_of_isBuffer_aliasAllowed h
  rw [readRegisters_of_isBuffer h]
  refine ⟨fun hunwritten => ?unwritten, fun hw hinit => ?preInit, fun hw hinit hneg => ?negative, fun hw hinit hzero => ?zero,
    fun n hw hinit hn hpos => ⟨fun before after r hbufs hbefore hr => ?range, fun hrange ha => ?aliasing,
      fun hrange ha => ?completes⟩⟩
  case unwritten =>
    obtain ⟨r, hfirst⟩ := State.firstUnwritten_eq_some hunwritten
    obtain ⟨hr, hw⟩ := State.unwritten_of_firstUnwritten hfirst
    exact ⟨r, hr, hw, by rw [he, runBuffer_unwritten hfirst]⟩
  case preInit => rw [he, runBuffer_preInit hw hinit]
  case negative => rw [he, runBuffer_negativeLength hw hinit hneg]
  case zero =>
    rw [he, runBuffer_zero _ _ _ _ _ hw hinit hzero]
    rfl
  case range =>
    have hfirst : s.firstOutOfRange (bufferOperands i) n = some r := by
      rw [hbufs, State.firstOutOfRange_append_cons hbefore hr]
    rw [he, runBuffer_range hw hinit hn hpos hfirst]
  case aliasing => exact exec_buffer_aliasing h (bufferReady_of_allWritten hw hinit hn hpos hrange) ha
  case completes =>
    obtain ⟨m, hnext⟩ := exec_buffer_completes h (bufferReady_of_allWritten hw hinit hn hpos hrange) ha
    exact ⟨_, hnext, rfl⟩

/-- Settles O33: the last check is the negation of the command's rule in `AliasAllowed`. -/
theorem aliasingRules : Obligations.AliasingRules := by
  intro s n
  refine ⟨fun hready => ⟨?add, fun _ => ?muladd, fun _ => ?mul⟩, fun hready => ⟨?add2, ?addset⟩, fun hready => ?swap⟩
  case add | muladd | mul | swap => exact Iff.trans (exec_buffer_aliasing_iff rfl hready) not_not
  case add2 =>
    have hbroken : ∀ r, ¬(s.addr .dst = s.addr r ∨ ¬Overlap (s.addr .dst) (s.addr r) n) ↔
        Overlap (s.addr .dst) (s.addr r) n ∧ s.addr .dst ≠ s.addr r := fun r => by rw [not_or, not_not, and_comm]
    exact (exec_buffer_aliasing_iff rfl hready).trans (not_and_or.trans (or_congr (hbroken .a) (hbroken .b)))
  case addset => exact (exec_buffer_aliasing_iff rfl hready).trans (not_and_or.trans (or_congr not_not not_not))

end Sys2Proof.Machine
end

section
/-! PROOFS of the family 60_exceptions: the return code of every next state, one lemma for each kind of command, and the obligation O51. -/

namespace Sys2Proof.Machine

/-! ### The return code by the kind of command (60 R211) -/

theorem exec_init_rc {s t : State} (h : exec .init s = .next t) : t.rc = 0x00 ∨ t.rc = 0x01 ∨ t.rc = 0x02 := by
  rcases execInit_next h with ⟨-, rfl⟩ | ⟨-, -, rfl⟩ | ⟨-, -, -, rfl⟩ | ⟨-, -, -, -, rfl⟩
  · exact .inr (.inl rfl) -- the wrong version
  · exact .inl rfl -- `INIT` again
  · exact .inr (.inr rfl) -- a big-endian host
  · exact .inl rfl -- the tables are built

theorem exec_buffer_rc {i : Instr} {s t : State} (hi : isBuffer i = true) (h : exec i s = .next t) : t.rc = 0x00 := by
  obtain ⟨mayAlias, body, he⟩ := exec_of_isBuffer hi
  rw [he] at h
  rcases runBuffer_next _ _ _ _ _ h with ⟨-, rfl⟩ | ⟨n, -, -, rfl⟩
  · rfl -- length 0
  · rfl -- the buffer is processed

theorem exec_lookup_rc {i : Instr} {s t : State} (hi : isLookup i = true) (hwf : i.wf = true) (h : exec i s = .next t) :
    t.rc = 0x00 := by
  rw [exec_eq_answer_lookupValue hi hwf, answer_eq] at h
  injection h with h
  rw [← h]

/-- An illegal word is answered, not refused or faulted (30 R80). -/
theorem step_illegalWord_rc {s : State} {w : Word} {rest : List HostAction} (hw : IllegalWord w)
    (hp : s.pending = .write 0x00 .word w :: rest) : ∃ t, step s = .next t ∧ t.rc = 0x03 := by
  obtain ⟨e, hd⟩ := (illegalWord_iff_decode_error w).mp hw
  exact ⟨_, step_illegal hp hd, State.illegalCommand_rc _⟩

/-! ### The obligation -/

/-- Settles O51: one lemma for each kind of command, and one for the illegal words. -/
theorem returnCodesOfEachCommand : Obligations.ReturnCodesOfEachCommand :=
  ⟨fun _ _ => exec_init_rc, fun _ _ _ => exec_buffer_rc, fun _ _ _ => exec_lookup_rc, fun _ _ _ => step_illegalWord_rc⟩

end Sys2Proof.Machine
end

section
/-! PROOFS of the family 70_reset_and_hazards: the bits of the `STATUS` word, the state a reset step answers, and the obligation O12. -/

namespace Sys2Proof.Machine

/-! ### The `STATUS` and `POLYREG` words (10 R24, R29) -/

theorem State.statusWord_getLsbD_zero (s : State) : s.statusWord.getLsbD 0 = s.ctx.initDone := by
  cases h : s.ctx.initDone <;> simp [State.statusWord, h]

/-- `RC` fills bits 15:8 and `INIT_DONE` bit 0; the bits between and above read 0 (10 R24). -/
theorem State.statusWord_getLsbD_reserved (s : State) {k : Nat} (hk : 1 ≤ k ∧ k < 8 ∨ 16 ≤ k) :
    s.statusWord.getLsbD k = false := by
  have hrc : (s.rc.zeroExtend 32 <<< 8).getLsbD k = false := by
    rcases hk with ⟨-, hlt⟩ | hge
    · simp [hlt] -- below the shift
    · simp [BitVec.getLsbD_of_ge s.rc (k - 8) (by omega)] -- above the eight bits of `RC`
  have hdone : (if s.ctx.initDone then 1 else 0 : Word).getLsbD k = false := by
    cases s.ctx.initDone with
    | false => simp
    | true => simp [show k ≠ 0 by omega]
  simp only [State.statusWord, BitVec.getLsbD_or, hrc, hdone, Bool.or_false]

theorem State.polyWord_eq_zero {s : State} (h : s.ctx.poly = 0) : s.polyWord = 0 := by
  simp [State.polyWord, h]

/-! ### The state a reset leaves -/

theorem step_reset {s : State} {rest : List HostAction} (hp : s.pending = .reset :: rest) :
    step s = .next (s.setPending rest).resetBlock := step_cons hp

/-- The start of a run and a reset within it give the field context and the `WRITTEN` bits the same values (70 R240). -/
theorem ctx_and_written_of_reset {t : State}
    (h : t = State.reset ∨ ∃ (s : State) (rest : List HostAction), s.pending = .reset :: rest ∧ step s = .next t) :
    t.ctx = FieldContext.unpopulated ∧ t.written = State.reset.written := by
  rcases h with rfl | ⟨s, rest, hp, hs⟩
  · exact ⟨rfl, rfl⟩ -- the start of a run
  · rw [step_reset hp] at hs
    injection hs with ht
    subst ht
    exact ⟨State.resetBlock_ctx _, State.resetBlock_written _⟩

/-! ### The obligation -/

/-- Settles O12: the given values are those of the unpopulated field context and of the cleared `WRITTEN` bits, which both resets leave. -/
theorem resetLeavesGivenValues : Obligations.ResetLeavesGivenValues := by
  refine ⟨fun t ht => ?values, fun s rest hp => ⟨_, step_reset hp, rfl, rfl⟩⟩
  obtain ⟨hctx, hwritten⟩ := ctx_and_written_of_reset ht
  have hdone : t.ctx.initDone = false := by rw [hctx, unpopulated_initDone]
  have hpoly : t.ctx.poly = 0 := by rw [hctx, unpopulated_poly]
  have hlow : t.statusWord.extractLsb' 1 7 = 0 :=
    extractLsb'_eq_zero_iff.mpr fun _ hlo hhi => t.statusWord_getLsbD_reserved (.inl ⟨hlo, hhi⟩)
  have hhigh : t.statusWord.extractLsb' 16 16 = 0 :=
    extractLsb'_eq_zero_iff.mpr fun _ hlo _ => t.statusWord_getLsbD_reserved (.inr hlo)
  refine ⟨hdone, t.statusWord_getLsbD_zero.trans hdone, hlow, hhigh, ?written, hpoly, State.polyWord_eq_zero hpoly, ?tables⟩
  case written => exact fun r => by rw [hwritten, State.reset_written_get]
  case tables =>
    rw [hctx]
    exact ⟨fun k _ => expAt_unpopulated k, logAt_unpopulated, mulAt_unpopulated, divAt_unpopulated, invAt_unpopulated⟩

end Sys2Proof.Machine
end

section
/-! PROOFS of the family other, encoding: the decoder's answer as one equivalence, the word put together from its fields, and the
obligations O1 and O2. -/

namespace Sys2Proof

/-! ### The decoder's answer -/

/-- What the decoder accepts and what it answers (30 R79). -/
theorem decode_eq_ok_iff {w : Word} {i : Instr} :
    decode w = .ok i ↔
      ∃ op, opcodeOf (fieldOp w) = some op ∧ w &&& formatMask (formatOf op) = (fieldOp w).zeroExtend 32 ∧
        ¬(formatOf op = .t ∧ 1020 ≤ (fieldIdx w).toNat) ∧ assemble op w = i := by
  cases hop : opcodeOf (fieldOp w) with
  | none => simp [decode, hop]
  | some op =>
    simp only [decode, hop, Option.some.injEq, exists_eq_left']
    split_ifs with hres hidx
    · exact iff_of_false nofun fun ⟨hmask, _⟩ => hres hmask
    · exact iff_of_false nofun fun ⟨_, hlow, _⟩ => hlow hidx
    · simp [not_not.mp hres, hidx]

section
variable {code : BitVec 5} {op : Opcode} (hop : opcodeOf code = some op)
include hop

theorem decode_encodeN (hf : formatOf op = .n) : decode (encodeN code) = .ok (assemble op (encodeN code)) := by
  refine decode_eq_ok_iff.mpr ⟨op, ?_⟩
  simp [fieldOp_encodeN, hop, hf, encodeN_masked]

theorem decode_encodeS (hf : formatOf op = .s) (x : Byte) :
    decode (encodeS code x) = .ok (assemble op (encodeS code x)) := by
  refine decode_eq_ok_iff.mpr ⟨op, ?_⟩
  simp [fieldOp_encodeS, hop, hf, encodeS_masked]

theorem decode_encodeP (hf : formatOf op = .p) (x y : Byte) :
    decode (encodeP code x y) = .ok (assemble op (encodeP code x y)) := by
  refine decode_eq_ok_iff.mpr ⟨op, ?_⟩
  simp [fieldOp_encodeP, hop, hf, encodeP_masked]

theorem decode_encodeT (hf : formatOf op = .t) {k : BitVec 10} (hk : k.toNat < 1020) :
    decode (encodeT code k) = .ok (assemble op (encodeT code k)) := by
  refine decode_eq_ok_iff.mpr ⟨op, ?_⟩
  simp [fieldOp_encodeT, hop, hf, encodeT_masked, fieldIdx_encodeT, hk]

end

/-- The decoder reads every well-formed command back from its word (30 R79). -/
theorem decode_encode {i : Instr} (h : i.wf = true) : decode (encode i) = .ok i := by
  cases i with
  | init | add | add2 | addset | swap => exact (decode_encodeN rfl rfl).trans rfl
  | muladd x | mul x | gfinv x | logrd x =>
    refine (decode_encodeS rfl rfl x).trans ?_
    rw [assemble, fieldX_encodeS]
  | gfadd x y | gfmul x y | gfdiv x y =>
    refine (decode_encodeP rfl rfl x y).trans ?_
    rw [assemble, fieldX_encodeP, fieldY_encodeP]
  | exprd k =>
    refine (decode_encodeT rfl rfl (of_decide_eq_true h)).trans ?_
    rw [assemble, fieldIdx_encodeT]

/-! ### The word of the command decoded -/

/-- The operation code of 30 R78. -/
def opcodeBits : Opcode → BitVec 5
  | .init => 0x01
  | .add => 0x02
  | .add2 => 0x03
  | .addset => 0x04
  | .muladd => 0x05
  | .mul => 0x06
  | .swap => 0x07
  | .gfadd => 0x08
  | .gfmul => 0x09
  | .gfdiv => 0x0A
  | .gfinv => 0x0B
  | .exprd => 0x0C
  | .logrd => 0x0D

theorem eq_opcodeBits {code : BitVec 5} {op : Opcode} (h : opcodeOf code = some op) : code = opcodeBits op := by
  revert code
  cases op <;> decide

/-- The word that format `f` makes of the operation code `code` and the immediates of `w`. -/
def reencode (f : Format) (code : BitVec 5) (w : Word) : Word :=
  match f with
  | .n => encodeN code
  | .s => encodeS code (fieldX w)
  | .p => encodeP code (fieldX w) (fieldY w)
  | .t => encodeT code (fieldIdx w)

theorem encode_assemble (op : Opcode) (w : Word) : encode (assemble op w) = reencode (formatOf op) (opcodeBits op) w := by
  cases op <;> rfl

theorem assemble_wf {op : Opcode} {w : Word} (h : ¬(formatOf op = .t ∧ 1020 ≤ (fieldIdx w).toNat)) :
    (assemble op w).wf = true := by
  cases op with
  | exprd => exact decide_eq_true (not_le.mp fun hle => h ⟨rfl, hle⟩)
  | _ => rfl

/-- A format's immediates are the bits its mask drops. -/
theorem reencode_eq_or (f : Format) (code : BitVec 5) (w : Word) :
    reencode f code w = w &&& ~~~formatMask f ||| code.zeroExtend 32 := by
  cases f with
  | n => simp [reencode, encodeN, formatMask]
  | s =>
    have hx : (fieldX w).zeroExtend 32 <<< 8 = w &&& ~~~formatMask .s := by
      ext k hk
      simp only [fieldX, formatMask]
      interval_cases k <;> simp
    rw [reencode, encodeS, hx]
  | p =>
    have hxy : (fieldY w).zeroExtend 32 <<< 16 ||| (fieldX w).zeroExtend 32 <<< 8 = w &&& ~~~formatMask .p := by
      ext k hk
      simp only [fieldX, fieldY, formatMask]
      interval_cases k <;> simp
    rw [reencode, encodeP, hxy]
  | t =>
    have hidx : (fieldIdx w).zeroExtend 32 <<< 8 = w &&& ~~~formatMask .t := by
      ext k hk
      simp only [fieldIdx, formatMask]
      interval_cases k <;> simp
    rw [reencode, encodeT, hidx]

/-- A word whose reserved bits are 0 is its fields put together. -/
theorem reencode_fields {f : Format} {w : Word} (h : w &&& formatMask f = (fieldOp w).zeroExtend 32) :
    reencode f (fieldOp w) w = w := by
  rw [reencode_eq_or, ← h, ← BitVec.and_or_distrib_left, BitVec.not_or_self, BitVec.and_allOnes]

/-- A word that decodes is the word of the command it decodes to (30 R79). -/
theorem encode_of_decode {w : Word} {i : Instr} (h : decode w = .ok i) : i.wf = true ∧ encode i = w := by
  obtain ⟨op, hop, hmask, hidx, rfl⟩ := decode_eq_ok_iff.mp h
  refine ⟨assemble_wf hidx, ?_⟩
  rw [encode_assemble, ← eq_opcodeBits hop, reencode_fields hmask]

/-! ### The obligations -/

/-- Settles O1: each format's fields are read back from its word. -/
theorem decodeOfEncode : Obligations.DecodeOfEncode := fun _ => decode_encode

/-- Settles O2: the decoder's mask check leaves no bit of the word but its fields. -/
theorem encodeOfDecode : Obligations.EncodeOfDecode := fun _ _ => encode_of_decode

end Sys2Proof
end

section
/-! PROOFS of the family other, buffer commands: the state each command answers once its checks pass, its loop in terms of the bytes
before it, the laws of 42 R186 as equations of loops, and the obligations O34 to O44 and O20. -/

namespace Sys2Proof.Machine

/-! ### Where two buffers lie -/

/-- Buffers of a length above 0 that do not overlap lie one after the other (20 R57). -/
theorem apart_of_not_overlap {p q n : Nat} (hn : 0 < n) (h : ¬Overlap p q n) : p + n ≤ q ∨ q + n ≤ p := by
  simp only [Overlap, not_and, not_lt] at h
  omega

section
variable {s : State} {bufs : List OperandReg} {n : Nat}

theorem BufferReady.pos (h : BufferReady s bufs n) : 0 < n := by
  obtain ⟨-, -, -, -, hpos, -⟩ := h
  exact hpos

theorem BufferReady.initDone (h : BufferReady s bufs n) : s.ctx.initDone = true := by
  obtain ⟨-, -, hdone, -⟩ := h
  exact hdone

theorem BufferReady.le (h : BufferReady s bufs n) {r : OperandReg} (hr : r ∈ bufs) : s.addr r + n ≤ 2 ^ 32 := by
  obtain ⟨-, -, -, -, hpos, hrange⟩ := h
  exact hrange.le hpos hr

/-- Writing memory and `RC` disturbs no check of a second buffer command. -/
theorem BufferReady.after (h : BufferReady s bufs n) (m : Memory) (c : ReturnCode) :
    BufferReady ((s.setMem m).complete c) bufs n := h

theorem AliasAllowed.after {i : Instr} (h : AliasAllowed i s n) (m : Memory) (c : ReturnCode) :
    AliasAllowed i ((s.setMem m).complete c) n := by
  cases i <;> exact h

theorem BufferReady.apart (h : BufferReady s bufs n) {p q : Nat} (ho : ¬Overlap p q n) : p + n ≤ q ∨ q + n ≤ p :=
  apart_of_not_overlap h.pos ho

end

/-! ### A second buffer command in a row -/

section
variable (s : State) (m m' : Memory) (c c' : ReturnCode)

@[simp] theorem State.setMem_addr (r : OperandReg) : (s.setMem m).addr r = s.addr r := rfl

@[simp] theorem State.complete_addr (r : OperandReg) : (s.complete c).addr r = s.addr r := rfl

@[simp] theorem State.setMem_complete_setMem_complete :
    (((s.setMem m).complete c).setMem m').complete c' = (s.setMem m').complete c' := rfl

end

/-! ### What each command answers once its checks pass (42 R170) -/

section
variable {s : State} {n : Nat}

theorem exec_add_ready (h : BufferReady s [.dst, .a] n) (ha : AliasAllowed .add s n) :
    exec .add s = .next ((s.setMem (addLoop (s.addr .dst) (s.addr .a) n s.mem)).complete .ok) := by
  unfold exec execAdd
  exact runBuffer_ready _ _ _ _ _ h (State.disjoint_iff_not_overlap.mpr ha)

theorem exec_add2_ready (h : BufferReady s [.dst, .a, .b] n) (ha : AliasAllowed .add2 s n) :
    exec .add2 s = .next ((s.setMem (add2Loop (s.addr .dst) (s.addr .a) (s.addr .b) n s.mem)).complete .ok) := by
  obtain ⟨hda, hdb⟩ := ha
  unfold exec execAdd2
  exact runBuffer_ready _ _ _ _ _ h (Bool.and_eq_true_iff.mpr
    ⟨State.identicalOrDisjoint_iff_not_overlap.mpr hda, State.identicalOrDisjoint_iff_not_overlap.mpr hdb⟩)

theorem exec_addset_ready (h : BufferReady s [.dst, .a, .b] n) (ha : AliasAllowed .addset s n) :
    exec .addset s = .next ((s.setMem (addsetLoop (s.addr .dst) (s.addr .a) (s.addr .b) n s.mem)).complete .ok) := by
  obtain ⟨hda, hdb⟩ := ha
  unfold exec execAddset
  exact runBuffer_ready _ _ _ _ _ h (Bool.and_eq_true_iff.mpr
    ⟨State.disjoint_iff_not_overlap.mpr hda, State.disjoint_iff_not_overlap.mpr hdb⟩)

theorem exec_muladd_ready {c : Byte} (h : BufferReady s [.dst, .a] n) (ha : AliasAllowed (.muladd c) s n) :
    exec (.muladd c) s = .next ((s.setMem (muladdLoop s.ctx.mul c (s.addr .dst) (s.addr .a) n s.mem)).complete .ok) := by
  unfold exec execMuladd
  exact runBuffer_ready _ _ _ _ _ h (State.disjoint_iff_not_overlap.mpr ha)

theorem exec_mul_ready {c : Byte} (h : BufferReady s [.dst, .a] n) (ha : AliasAllowed (.mul c) s n) :
    exec (.mul c) s = .next ((s.setMem (mulLoop s.ctx.mul c (s.addr .dst) (s.addr .a) n s.mem)).complete .ok) := by
  unfold exec execMul
  exact runBuffer_ready _ _ _ _ _ h (State.disjoint_iff_not_overlap.mpr ha)

theorem exec_swap_ready (h : BufferReady s [.a, .b] n) (ha : AliasAllowed .swap s n) :
    exec .swap s = .next ((s.setMem (swapLoop (s.addr .a) (s.addr .b) n s.mem)).complete .ok) := by
  unfold exec execSwap
  exact runBuffer_ready _ _ _ _ _ h (State.disjoint_iff_not_overlap.mpr ha)

end

/-! ### Reading inside and outside a buffer -/

section
variable {α : Type} {d n : Nat} {v w : α}

theorem ite_inside {k : Nat} (hk : k < n) : (if d ≤ d + k ∧ d + k < d + n then v else w) = v :=
  if_pos ⟨Nat.le_add_right d k, Nat.add_lt_add_left hk d⟩

theorem ite_outside {x : Nat} (hx : Outside d n x) : (if d ≤ x ∧ x < d + n then v else w) = w :=
  if_neg (by omega)

end

/-! ### The laws of the loops (42 R186) -/

section
variable {m : Memory} (hw : m.wf = true) {d a b n : Nat} (hd : d + n ≤ 2 ^ 32) (hda : d + n ≤ a ∨ a + n ≤ d)
include hw hd hda

/-- Additive involution: the second pass XORs in the same source bytes. -/
theorem addLoop_addLoop : addLoop d a n (addLoop d a n m) = m := by
  have hw' := addLoop_wf hw hd a
  refine Memory.ext_read (addLoop_wf hw' hd a) hw fun x => ?_
  rw [addLoop_read hw' hd hda, addLoop_read hw hd hda x]
  by_cases hx : d ≤ x ∧ x < d + n
  · have hsrc : (addLoop d a n m).read (a + (x - d)) = m.read (a + (x - d)) := by
      rw [addLoop_read hw hd hda, if_neg (by omega)]
    rw [if_pos hx, if_pos hx, hsrc, BitVec.xor_assoc, BitVec.xor_self, BitVec.xor_zero]
  · rw [if_neg hx, if_neg hx]

/-- On a zero `dst`, accumulating and overwriting agree. -/
theorem add2Loop_eq_addsetLoop (hdb : d + n ≤ b ∨ b + n ≤ d) (hzero : ∀ k, k < n → m.read (d + k) = 0) :
    add2Loop d a b n m = addsetLoop d a b n m := by
  refine Memory.ext_read (storeBytes_wf hw hd _) (storeBytes_wf hw hd _) fun x => ?_
  rw [add2Loop_read hw hd (.inr hda) (.inr hdb), addsetLoop_read hw hd hda hdb]
  by_cases hx : d ≤ x ∧ x < d + n
  · have hread : m.read x = 0 := by
      have h := hzero (x - d) (by omega)
      rwa [Nat.add_sub_cancel' hx.1] at h
    rw [if_pos hx, if_pos hx, hread, show (0 : Byte) = 0#8 from rfl, BitVec.zero_xor]
  · rw [if_neg hx, if_neg hx]

end

/-- Swap involution: each buffer gets its own bytes back. -/
theorem swapLoop_swapLoop {m : Memory} (hw : m.wf = true) {a b n : Nat} (ha : a + n ≤ 2 ^ 32) (hb : b + n ≤ 2 ^ 32)
    (hab : a + n ≤ b ∨ b + n ≤ a) : swapLoop a b n (swapLoop a b n m) = m := by
  have hw' := swapLoop_wf hw ha hb
  refine Memory.ext_read (swapLoop_wf hw' ha hb) hw fun x => ?_
  simp only [swapLoop_read hw' ha hb hab, swapLoop_read hw ha hb hab]
  by_cases hxa : a ≤ x ∧ x < a + n
  · rw [if_pos hxa, if_neg (by omega), if_pos (by omega)]
    congr 1
    omega
  · by_cases hxb : b ≤ x ∧ x < b + n
    · rw [if_neg hxa, if_pos hxb, if_pos (by omega)]
      congr 1
      omega
    · rw [if_neg hxa, if_neg hxb, if_neg hxa, if_neg hxb]

/-! ### The scaling loops after `INIT`, by the reference multiplication -/

section
variable {s : State} (hinv : Inv s) (hdone : s.ctx.initDone = true)
include hinv hdone

theorem mulAt_ready (x y : Byte) : pairAt s.ctx.mul y x = gfmul s.ctx.poly x y := by
  obtain ⟨hcat, hctx⟩ := ctx_eq_builtContext hinv hdone
  rw [hctx, builtContext_mul, builtContext_poly, mulAt_built_eq_gfmul hcat]

section
variable {m : Memory} (hw : m.wf = true) {d a n : Nat} (hd : d + n ≤ 2 ^ 32) (hda : d + n ≤ a ∨ a + n ≤ d)
include hw hd hda

/-- The three branches of `MULADD` are one: the product is XORed in (42 R180). -/
theorem muladdLoop_read_ready (c : Byte) (x : Nat) :
    (muladdLoop s.ctx.mul c d a n m).read x =
      if d ≤ x ∧ x < d + n then m.read x ^^^ gfmul s.ctx.poly (m.read (a + (x - d))) c else m.read x := by
  have hpoly := ctx_fieldPoly hinv hdone
  rw [muladdLoop_read hw _ c hd hda]
  simp only [mulAt_ready hinv hdone]
  by_cases hc0 : c = 0
  · rw [if_neg (by simp [hc0]), hc0, gfmul_zero_right hpoly.top, show m.read x ^^^ 0 = m.read x from BitVec.xor_zero, ite_self]
  · simp only [ne_eq, hc0, not_false_eq_true, and_true]
    by_cases hc1 : c = 1
    · rw [if_pos hc1, hc1, hpoly.gfmul_one_right]
    · rw [if_neg hc1]

/-- For a scalar other than 1, `MUL` stores the product (42 R182). -/
theorem mulLoop_read_ready {c : Byte} (hc : c ≠ 1) (x : Nat) :
    (mulLoop s.ctx.mul c d a n m).read x =
      if d ≤ x ∧ x < d + n then gfmul s.ctx.poly (m.read (a + (x - d))) c else m.read x := by
  have hpoly := ctx_fieldPoly hinv hdone
  rw [mulLoop_read hw _ c hd hda]
  simp only [mulAt_ready hinv hdone, ne_eq, hc, not_false_eq_true, and_true]
  by_cases hc0 : c = 0
  · rw [if_pos hc0, hc0, gfmul_zero_right hpoly.top]
  · rw [if_neg hc0]

/-- Distributivity: the source is not written, and multiplication distributes over XOR. -/
theorem muladdLoop_muladdLoop (c e : Byte) :
    muladdLoop s.ctx.mul e d a n (muladdLoop s.ctx.mul c d a n m) = muladdLoop s.ctx.mul (c ^^^ e) d a n m := by
  have hw' := muladdLoop_wf hw s.ctx.mul c hd a
  refine Memory.ext_read (muladdLoop_wf hw' _ e hd a) (muladdLoop_wf hw _ _ hd a) fun x => ?_
  simp only [muladdLoop_read_ready hinv hdone hw' hd hda, muladdLoop_read_ready hinv hdone hw hd hda]
  by_cases hx : d ≤ x ∧ x < d + n
  · rw [if_pos hx, if_pos hx, if_pos hx, if_neg (by omega), gfmul_xor_right (ctx_fieldPoly hinv hdone).top, BitVec.xor_assoc]
  · rw [if_neg hx, if_neg hx, if_neg hx]

end

/-- The inverse of a scalar other than 0 and 1, and that it undoes the scalar (40 R112, 42 R186). -/
theorem invAt_ready {c : Byte} (hc0 : c ≠ 0) (hc1 : c ≠ 1) :
    invAt s.ctx.inv c ≠ 0 ∧ invAt s.ctx.inv c ≠ 1 ∧
      ∀ x, gfmul s.ctx.poly (gfmul s.ctx.poly x c) (invAt s.ctx.inv c) = x := by
  have hpoly := ctx_fieldPoly hinv hdone
  have hone : gfmul s.ctx.poly c (invAt s.ctx.inv c) = 1 := by
    obtain ⟨hcat, hctx⟩ := ctx_eq_builtContext hinv hdone
    rw [hctx, builtContext_inv, builtContext_poly, gfmul_invAt_built hcat hc0]
  refine ⟨fun h => ?_, fun h => ?_, fun x => ?_⟩
  · rw [h, gfmul_zero_right hpoly.top] at hone
    exact absurd hone (by decide)
  · rw [h, hpoly.gfmul_one_right] at hone
    exact hc1 hone
  · rw [hpoly.gfmul_assoc, hone, hpoly.gfmul_one_right]

end

/-! ### The obligations -/

/-- Settles O20: the table's entries are those the build gives. -/
theorem mulTableIsReferenceProduct : Obligations.MulTableIsReferenceProduct :=
  fun _ hinv hdone => mulAt_ready hinv hdone

/-- Settles O34, by what the loop leaves at every address. -/
theorem addAccumulatesXor : Obligations.AddAccumulatesXor := by
  intro s n hw hready ha
  have hread := addLoop_read hw (hready.le (r := .dst) (by simp)) (hready.apart ha)
  refine ⟨_, exec_add_ready hready ha, rfl, fun k hk => ?inside, fun x hx => (hread x).trans (ite_outside hx)⟩
  case inside => exact (hread _).trans (by rw [ite_inside hk, Nat.add_sub_cancel_left])

/-- Settles O35: `dst[i]` is written after `a[i]` and `b[i]` are read, so identical buffers do no harm. -/
theorem add2FoldsThreeBuffers : Obligations.Add2FoldsThreeBuffers := by
  intro s n hw hready ha
  have ⟨hda, hdb⟩ := ha
  have hread := add2Loop_read hw (hready.le (r := .dst) (by simp)) (hda.imp_right hready.apart) (hdb.imp_right hready.apart)
  refine ⟨_, exec_add2_ready hready ha, rfl, fun k hk => ?inside, fun x hx => (hread x).trans (ite_outside hx)⟩
  case inside => exact (hread _).trans (by rw [ite_inside hk, Nat.add_sub_cancel_left])

/-- Settles O36, by what the loop leaves at every address. -/
theorem addsetOverwritesWithXor : Obligations.AddsetOverwritesWithXor := by
  intro s n hw hready ha
  have ⟨hda, hdb⟩ := ha
  have hread := addsetLoop_read hw (hready.le (r := .dst) (by simp)) (hready.apart hda) (hready.apart hdb)
  refine ⟨_, exec_addset_ready hready ha, rfl, fun k hk => ?inside, fun x hx => (hread x).trans (ite_outside hx)⟩
  case inside => exact (hread _).trans (by rw [ite_inside hk, Nat.add_sub_cancel_left])

/-- Settles O37: each branch by itself, and all three by the reference product. -/
theorem muladdAccumulatesProduct : Obligations.MuladdAccumulatesProduct := by
  intro s c n hw hready ha
  have hd := hready.le (r := .dst) (by simp)
  have hread := muladdLoop_read hw s.ctx.mul c hd (hready.apart ha)
  refine ⟨_, exec_muladd_ready hready ha, rfl, fun hc => ?zero, fun hc => ?one, fun hc0 hc1 k hk => ?table,
    fun hinv k hk => ?product, fun x hx => ?outside⟩
  case zero => exact if_pos hc
  case one =>
    rw [exec_add_ready hready ha, hc]
    rfl
  case table =>
    refine (hread _).trans ?_
    rw [if_pos ⟨Nat.le_add_right _ k, by omega, hc0⟩, if_neg hc1, Nat.add_sub_cancel_left]
  case product =>
    refine (muladdLoop_read_ready hinv hready.initDone hw hd (hready.apart ha) c _).trans ?_
    rw [ite_inside hk, Nat.add_sub_cancel_left]
  case outside => exact (hread x).trans (if_neg (by omega))

/-- Settles O38: each branch by itself, and the product for every scalar but 1. -/
theorem mulStoresProduct : Obligations.MulStoresProduct := by
  intro s c n hw hready ha
  have hd := hready.le (r := .dst) (by simp)
  have hread := mulLoop_read hw s.ctx.mul c hd (hready.apart ha)
  refine ⟨_, exec_mul_ready hready ha, rfl, fun hc k hk => ?zero, fun hc => ?one, fun hc0 hc1 k hk => ?table,
    fun hinv hc k hk => ?product, fun x hx => ?outside⟩
  case zero =>
    have hc1 : c ≠ 1 := by rw [hc]; decide
    refine (hread _).trans ?_
    rw [if_pos ⟨Nat.le_add_right _ k, by omega, hc1⟩, if_pos hc]
  case one =>
    rw [hc]
    rfl
  case table =>
    refine (hread _).trans ?_
    rw [if_pos ⟨Nat.le_add_right _ k, by omega, hc1⟩, if_neg hc0, Nat.add_sub_cancel_left]
  case product =>
    refine (mulLoop_read_ready hinv hready.initDone hw hd (hready.apart ha) hc _).trans ?_
    rw [ite_inside hk, Nat.add_sub_cancel_left]
  case outside => exact (hread x).trans (if_neg (by omega))

/-- Settles O39, by what the loop leaves at every address. -/
theorem swapExchangesBuffers : Obligations.SwapExchangesBuffers := by
  intro s n hw hready ha
  have hab := hready.apart ha
  have hread := swapLoop_read hw (hready.le (r := .a) (by simp)) (hready.le (r := .b) (by simp)) hab
  refine ⟨_, exec_swap_ready hready ha, rfl, fun k hk => ⟨?inA, ?inB⟩, fun x hxa hxb => ?outside⟩
  case inA => exact (hread _).trans (by rw [ite_inside hk, Nat.add_sub_cancel_left])
  case inB =>
    refine (hread _).trans ?_
    rw [if_neg (by omega), ite_inside hk, Nat.add_sub_cancel_left]
  case outside => exact (hread x).trans ((ite_outside hxa).trans (ite_outside hxb))

/-- Settles O40: the second `ADD` passes the same checks, and its loop undoes the first's. -/
theorem addTwiceRestoresMemory : Obligations.AddTwiceRestoresMemory := by
  intro s n hw hready ha
  refine ⟨_, exec_add_ready hready ha, ?_⟩
  rw [exec_add_ready (hready.after _ _) (ha.after _ _)]
  simp only [State.complete_addr, State.setMem_addr, State.complete_mem, State.setMem_mem,
    State.setMem_complete_setMem_complete]
  rw [addLoop_addLoop hw (hready.le (r := .dst) (by simp)) (hready.apart ha)]
  rfl

/-- Settles O41: the second `SWAP` passes the same checks, and its loop undoes the first's. -/
theorem swapTwiceRestoresMemory : Obligations.SwapTwiceRestoresMemory := by
  intro s n hw hready ha
  refine ⟨_, exec_swap_ready hready ha, ?_⟩
  rw [exec_swap_ready (hready.after _ _) (ha.after _ _)]
  simp only [State.complete_addr, State.setMem_addr, State.complete_mem, State.setMem_mem,
    State.setMem_complete_setMem_complete]
  rw [swapLoop_swapLoop hw (hready.le (r := .a) (by simp)) (hready.le (r := .b) (by simp)) (hready.apart ha)]
  rfl

/-- Settles O42: the aliasing rule of `ADDSET` is the stricter one, and on a zero `dst` the two loops agree. -/
theorem addsetEqualsAdd2OnZeroDst : Obligations.AddsetEqualsAdd2OnZeroDst := by
  intro s n hw hready ha hzero
  have ⟨hda, hdb⟩ := ha
  have hloop := add2Loop_eq_addsetLoop hw (hready.le (r := .dst) (by simp)) (hready.apart hda) (hready.apart hdb) hzero
  refine ⟨_, exec_addset_ready hready ha, ?_⟩
  rw [exec_add2_ready hready ⟨.inr hda, .inr hdb⟩, hloop]

/-- Settles O43: the two loops in a row are the loop by the sum of the scalars. -/
theorem muladdDistributesOverScalars : Obligations.MuladdDistributesOverScalars := by
  intro s c e n hinv hready ha
  have ⟨hw, _⟩ := hinv
  have hd := hready.le (r := .dst) (by simp)
  refine ⟨_, _, exec_muladd_ready hready ha, ?second, exec_muladd_ready hready ha, fun k hk => ?product⟩
  case second =>
    rw [exec_muladd_ready (hready.after _ _) (AliasAllowed.after (i := .muladd e) ha _ _)]
    simp only [State.complete_addr, State.setMem_addr, State.complete_mem, State.setMem_mem, State.complete_ctx,
      State.setMem_ctx, State.setMem_complete_setMem_complete]
    rw [muladdLoop_muladdLoop hinv hready.initDone hw hd (hready.apart ha)]
  case product =>
    refine (muladdLoop_read_ready hinv hready.initDone hw hd (hready.apart ha) _ _).trans ?_
    rw [ite_inside hk, Nat.add_sub_cancel_left]

/-- Settles O44: the second command reads the products the first stored, in a state that meets the invariant as well. -/
theorem inverseScalingRestoresSource : Obligations.InverseScalingRestoresSource := by
  intro s t s' c n hinv hc0 hc1 hready ha ht hmem hctx hparams haddr hready' ha'
  have ⟨hw, _⟩ := hinv
  obtain ⟨hinv0, hinv1, hundo⟩ := invAt_ready hinv hready.initDone hc0 hc1
  have hd := hready.le (r := .dst) (by simp)
  rw [exec_mul_ready hready ha] at ht
  injection ht with ht
  subst ht
  have hw' : s'.mem.wf = true := by
    rw [hmem]
    exact mulLoop_wf hw _ c hd _
  refine ⟨hinv0, hinv1, _, exec_mul_ready hready' ha', fun k hk => ?_⟩
  have hfirst : s'.mem.read (s'.addr .a + k) = gfmul s.ctx.poly (s.mem.read (s.addr .a + k)) c := by
    rw [hmem, haddr]
    refine (mulLoop_read_ready hinv hready.initDone hw hd (hready.apart ha) hc1 _).trans ?_
    rw [ite_inside hk, Nat.add_sub_cancel_left]
  simp only [hctx, State.complete_mem, State.setMem_mem, State.complete_ctx, State.setMem_ctx]
  refine (mulLoop_read_ready hinv hready.initDone hw' (hready'.le (r := .dst) (by simp)) (hready'.apart ha') hinv1 _).trans ?_
  rw [ite_inside hk, Nat.add_sub_cancel_left, hfirst, hundo]

end Sys2Proof.Machine
end

section
/-! PROOFS of the family other, steps: the frame of every command, what a step leaves of the parameters, `RESULT` and the field context,
the invariant, and the obligations O45, O46, O48, O49, O50 and O52. -/

namespace Sys2Proof.Machine

/-! ### The frame of a command -/

/-- Settles O52: `INIT` touches the field context and `RC`, a buffer command memory and `RC`, a lookup `RESULT` and `RC`. -/
theorem frameOfEveryCommand : Obligations.FrameOfEveryCommand := by
  intro i s t h
  rcases exec_next h with ⟨rfl, hinit⟩ | ⟨hbuffer, m, rfl⟩ | ⟨hlookup, ⟨v, rfl⟩ | rfl⟩
  · rcases execInit_next hinit with ⟨-, rfl⟩ | ⟨-, -, rfl⟩ | ⟨-, -, -, rfl⟩ | ⟨-, -, -, -, rfl⟩ <;> simp
  · simp [hbuffer]
  · simp [hlookup]
  · simp

section
variable {i : Instr} {s t : State} (h : exec i s = .next t)
include h

theorem exec_params : t.params = s.params := by
  obtain ⟨hparams, -⟩ := frameOfEveryCommand i s t h
  exact hparams

theorem exec_mem (hi : isBuffer i = false) : t.mem = s.mem := by
  obtain ⟨-, -, -, -, -, -, hmem, -⟩ := frameOfEveryCommand i s t h
  exact hmem hi

theorem exec_result (hi : isLookup i = false) : t.result = s.result := by
  obtain ⟨-, -, -, -, -, -, -, hresult, -⟩ := frameOfEveryCommand i s t h
  exact hresult hi

end

/-! ### What a step leaves of the parameters and of `RESULT` -/

theorem step_params {s t : State} (h : step s = .next t) : t.params = s.params := by
  rcases step_next h with ⟨-, rfl⟩ | ⟨rest, u, rfl, ⟨w, i, -, -, he⟩ | ⟨_, _, _, _, rfl⟩ | ⟨_, _, _, _, _, rfl⟩ |
    ⟨_, _, _, _, rfl⟩ | ⟨_, _, _, _, rfl⟩ | ⟨_, _, _, _, rfl⟩ | ⟨-, rfl⟩⟩
  · rfl -- idle
  · exact (exec_params he).trans (s.setPending_params rest) -- a command
  all_goals rfl -- an illegal word, an access that issues no command, or a reset

/-- Only a reset or a pending lookup writes `RESULT` (10 R28). -/
theorem step_result {s t : State} (h : step s = .next t) :
    t.result = s.result ∨ (∃ rest, s.pending = .reset :: rest) ∨
      ∃ w i rest, s.pending = .write 0x00 .word w :: rest ∧ decode w = .ok i ∧ isLookup i = true := by
  rcases step_next h with ⟨-, rfl⟩ | ⟨rest, u, rfl, ⟨w, i, hp, hd, he⟩ | ⟨_, _, _, _, rfl⟩ | ⟨_, _, _, _, _, rfl⟩ |
    ⟨_, _, _, _, rfl⟩ | ⟨_, _, _, _, rfl⟩ | ⟨_, _, _, _, rfl⟩ | ⟨hp, -⟩⟩
  · exact .inl rfl -- idle
  · cases hlookup : isLookup i with -- a command
    | true => exact .inr (.inr ⟨w, i, rest, hp, hd, hlookup⟩)
    | false => exact .inl ((exec_result he hlookup).trans (s.setPending_result rest))
  · exact .inl rfl -- an illegal word
  · exact .inl rfl -- a write of an operand register
  · exact .inl rfl -- a write without effect
  · exact .inl rfl -- a read
  · exact .inl rfl -- a write of buffer memory
  · exact .inr (.inl ⟨rest, hp⟩) -- a reset

/-! ### The canonical form of memory -/

/-- A host's bytes in a range that exists stay inside the address space (20 R54). -/
theorem writeList_wf_of_inRange {p : Params} {m : Memory} {addr : Nat} {bytes : List Byte} (hw : m.wf = true)
    (hrange : inRange p addr bytes.length = true) : (m.writeList addr bytes).wf = true := by
  rcases inRange_iff.mp hrange with hempty | ⟨hle, -⟩
  · rwa [List.length_eq_zero_iff.mp hempty]
  · exact Memory.writeList_wf hw bytes hle

theorem runBuffer_memWf {i : Instr} {bufs : List OperandReg} {mayAlias : State → Nat → Bool}
    {body : State → Nat → Memory → Memory} {s t : State} (h : runBuffer i bufs mayAlias body s = .next t)
    (hw : s.mem.wf = true) (hbody : ∀ n, BufferReady s bufs n → (body s n s.mem).wf = true) : t.mem.wf = true := by
  rcases runBuffer_next _ _ _ _ _ h with ⟨-, rfl⟩ | ⟨n, hready, -, rfl⟩
  · exact hw
  · exact hbody n hready

/-- Every command keeps memory in its canonical form: the loops write below the end of a buffer that is in range. -/
theorem exec_memWf {i : Instr} {s t : State} (h : exec i s = .next t) (hw : s.mem.wf = true) : t.mem.wf = true := by
  have hdst : ∀ {bufs n}, BufferReady s (.dst :: bufs) n → s.addr .dst + n ≤ 2 ^ 32 := fun hr => hr.le (by simp)
  cases i with
  | add =>
    unfold exec execAdd at h
    exact runBuffer_memWf h hw fun n hr => addLoop_wf hw (hdst hr) _
  | add2 =>
    unfold exec execAdd2 at h
    exact runBuffer_memWf h hw fun n hr => storeBytes_wf hw (hdst hr) _
  | addset =>
    unfold exec execAddset at h
    exact runBuffer_memWf h hw fun n hr => storeBytes_wf hw (hdst hr) _
  | muladd k =>
    unfold exec execMuladd at h
    exact runBuffer_memWf h hw fun n hr => muladdLoop_wf hw _ k (hdst hr) _
  | mul k =>
    unfold exec execMul at h
    exact runBuffer_memWf h hw fun n hr => mulLoop_wf hw _ k (hdst hr) _
  | swap =>
    unfold exec execSwap at h
    exact runBuffer_memWf h hw fun n hr => swapLoop_wf hw (hr.le (by simp)) (hr.le (by simp))
  | init | gfadd x y | gfmul x y | gfdiv x y | gfinv x | exprd k | logrd x => rwa [exec_mem h rfl]

/-! ### The invariant -/

/-- `INIT` alone writes the field context, and it builds from a valid catalog (40 R102). -/
theorem exec_contextInv {i : Instr} {s t : State} (h : exec i s = .next t) (hc : ContextInv s) : ContextInv t := by
  rcases exec_next h with ⟨-, hinit⟩ | ⟨-, m, rfl⟩ | ⟨-, ⟨v, rfl⟩ | rfl⟩
  · rcases execInit_next hinit with ⟨-, rfl⟩ | ⟨-, -, rfl⟩ | ⟨-, -, -, rfl⟩ | ⟨-, -, -, hcat, rfl⟩
    · exact hc -- the wrong version
    · exact hc -- `INIT` again
    · exact hc -- a big-endian host
    · exact .inr ⟨hcat, rfl⟩ -- the tables are built
  · exact hc -- a buffer command
  · exact hc -- a lookup
  · exact hc -- an index that no word encodes

theorem exec_inv {i : Instr} {s t : State} (h : exec i s = .next t) (hinv : Inv s) : Inv t := by
  obtain ⟨hw, hc⟩ := hinv
  exact ⟨exec_memWf h hw, exec_contextInv h hc⟩

theorem step_inv {s t : State} (h : step s = .next t) (hinv : Inv s) : Inv t := by
  have ⟨hw, hc⟩ := hinv
  rcases step_next h with ⟨-, rfl⟩ | ⟨rest, u, rfl, ⟨w, i, -, -, he⟩ | ⟨_, _, _, _, rfl⟩ | ⟨_, _, _, _, _, rfl⟩ |
    ⟨_, _, _, _, rfl⟩ | ⟨_, _, _, _, rfl⟩ | ⟨_, _, _, hrange, rfl⟩ | ⟨-, rfl⟩⟩
  · exact hinv -- idle
  · exact exec_inv he hinv -- a command
  · exact hinv -- an illegal word
  · exact hinv -- a write of an operand register
  · exact hinv -- a write without effect
  · exact hinv -- a read
  · exact ⟨writeList_wf_of_inRange hw hrange, hc⟩ -- a write of buffer memory
  · exact ⟨hw, .inl rfl⟩ -- a reset

/-! ### The obligations -/

/-- Settles O45: memory through the loops and the hosts' writes, the field context through `INIT` and reset. -/
theorem stepKeepsInvariant : Obligations.StepKeepsInvariant := fun _ _ hinv h => step_inv h hinv

/-- Settles O46: memory is empty and the field context unpopulated. -/
theorem resetMeetsInvariant : Obligations.ResetMeetsInvariant := ⟨rfl, .inl rfl⟩

/-- Settles O48: only `INIT`'s own word decodes to `INIT`, so `step_ctx` names the write. -/
theorem onlyInitAndResetWriteFieldContext : Obligations.OnlyInitAndResetWriteFieldContext := by
  intro s t h hne
  rcases step_ctx h with hctx | hreset | ⟨w, rest, hp, hd, harg, hdone, rfl⟩
  · exact absurd hctx hne
  · exact .inl hreset
  · obtain ⟨-, rfl⟩ := encode_of_decode hd
    exact .inr ⟨rest, hp, hdone, rfl, rfl, harg⟩

/-- Settles O49: no command and no host access writes them. -/
theorem parametersNeverChange : Obligations.ParametersNeverChange := fun _ _ => step_params

/-- Settles O50, by the frame of every command that is no lookup. -/
theorem onlyLookupsAndResetWriteResult : Obligations.OnlyLookupsAndResetWriteResult :=
  fun _ _ h hne => (step_result h).resolve_left hne

end Sys2Proof.Machine
end

section
/-! PROOFS of the family other, host accesses: the register window's reads, a host's `MEM`, the idle step, and the obligations O6, O7, O9
and O11. -/

namespace Sys2Proof.Machine

/-! ### The fields of the `STATUS` and `POLYREG` words (10 R24, R29) -/

theorem State.statusWord_rc (s : State) : s.statusWord.extractLsb' 8 8 = s.rc := by
  refine BitVec.eq_of_getLsbD_eq fun k hk => ?_
  have hk32 : 8 + k < 32 := by omega
  cases hdone : s.ctx.initDone <;> simp [State.statusWord, hdone, hk, hk32]

theorem State.polyWord_poly (s : State) : s.polyWord.extractLsb' 0 9 = s.ctx.poly := by
  refine BitVec.eq_of_getLsbD_eq fun k hk => ?_
  simp [State.polyWord, hk, show k < 32 by omega]

theorem State.polyWord_high (s : State) : s.polyWord.extractLsb' 9 23 = 0 :=
  extractLsb'_eq_zero_iff.mpr fun k hk _ => by simp [State.polyWord, BitVec.getLsbD_of_ge s.ctx.poly k hk]

/-! ### Reads and writes -/

theorem step_read {s : State} {offset : Nat} {width : AccessWidth} {rest : List HostAction}
    (hp : s.pending = .read offset width :: rest) : step s = hostRead offset width (s.setPending rest) := step_cons hp

theorem hostRead_operand {offset : Nat} {r : OperandReg} (h : (offset, r) ∈ operandOffsets) {s : State}
    (hw : s.written.get r = true) : hostRead offset .word s = .next (s.observe (s.regs.get r)) := by
  simp [hostRead, accessOk_operand h, hostReg_operand h, State.firstUnwritten_of_written hw]

theorem hostMem_of_inRange {addr : Word} {bytes : List Byte} {s : State}
    (h : inRange s.params addr.toNat bytes.length = true) :
    hostMem addr bytes s = .next (s.setMem (s.mem.writeList addr.toNat bytes)) := by
  simp [hostMem, h]

theorem hostMem_of_not_inRange {addr : Word} {bytes : List Byte} {s : State}
    (h : inRange s.params addr.toNat bytes.length = false) :
    hostMem addr bytes s = .refused (.hostMemoryRange addr bytes.length) := by
  simp [hostMem, h]

/-- A run of no bytes writes nothing, wherever it lies. -/
theorem read_writeList_of_inRange {p : Params} {m : Memory} {addr : Nat} {bytes : List Byte} (hw : m.wf = true)
    (hrange : inRange p addr bytes.length = true) (x : Nat) :
    (m.writeList addr bytes).read x =
      if addr ≤ x ∧ x < addr + bytes.length then bytes.getD (x - addr) 0 else m.read x := by
  rcases inRange_iff.mp hrange with hempty | ⟨hle, -⟩
  · obtain rfl := List.length_eq_zero_iff.mp hempty
    rw [if_neg (by simp), Memory.writeList]
  · exact Memory.read_writeList hw bytes hle x

/-! ### The obligations -/

/-- Settles O6: with no access to take, the step has nothing to do. -/
theorem idleBlockKeepsAllState : Obligations.IdleBlockKeepsAllState := fun _ => step_nil

/-- Settles O7: each offset's register, and the fields of `STATUS` and `POLYREG` bit by bit. -/
theorem readOnlyRegisterReads : Obligations.ReadOnlyRegisterReads := by
  intro s offset rest hp
  rw [step_read hp]
  refine ⟨?status, ?result, ?polyreg, ?version, fun hlo hhi halign => ?reserved⟩
  case status =>
    rintro rfl
    refine ⟨s.statusWord, rfl, s.statusWord_getLsbD_zero, ?_, s.statusWord_rc, ?_⟩
    · exact extractLsb'_eq_zero_iff.mpr fun _ hlo hhi => s.statusWord_getLsbD_reserved (.inl ⟨hlo, hhi⟩)
    · exact extractLsb'_eq_zero_iff.mpr fun _ hlo _ => s.statusWord_getLsbD_reserved (.inr hlo)
  case result => rintro rfl; rfl
  case polyreg =>
    rintro rfl
    exact ⟨s.polyWord, rfl, s.polyWord_poly, s.polyWord_high⟩
  case version => rintro rfl; rfl
  case reserved => exact hostRead_reserved (accessOk_iff.mpr ⟨rfl, halign, by omega⟩) hlo _

/-- Settles O9: the write sets the `WRITTEN` bit, so the read answers. -/
theorem operandRegisterWriteThenRead : Obligations.OperandRegisterWriteThenRead := by
  intro s offset r v rest hr hp
  have hwrite : step s = .next ((s.setPending (.read offset .word :: rest)).writeReg r v) :=
    (step_cons hp).trans (hostWrite_operand hr v _)
  refine ⟨_, _, hwrite, (step_read rfl).trans (hostRead_operand hr ?written), PerReg.get_set_same _ r v,
    State.writeReg_written_get _ r v, fun q hq => ?others, rfl, ?second⟩
  case written => rw [State.setPending_written, State.writeReg_written_get]
  case others => exact ⟨State.writeReg_regs_get_ne _ v hq, State.writeReg_written_get_ne _ v hq⟩
  case second =>
    simp only [State.setPending_regs, State.writeReg_regs, PerReg.get_set_same]
    rfl

/-- Settles O11, by what a run of bytes leaves at every address. -/
theorem hostMemWritesBytes : Obligations.HostMemWritesBytes := by
  intro s addr bytes rest hp hw
  rw [step_cons hp]
  refine ⟨fun hrange => ?inside, fun hrange => hostMem_of_not_inRange hrange⟩
  have hread := read_writeList_of_inRange hw hrange
  refine ⟨_, hostMem_of_inRange hrange, rfl, fun k hk => ?byte, fun x hx => (hread x).trans (ite_outside hx)⟩
  case byte =>
    refine (hread _).trans ?_
    rw [ite_inside hk, Nat.add_sub_cancel_left]
    simp [hk]

end Sys2Proof.Machine
end

section
/-! PROOFS of the family other, `INIT` and the tables: the outcomes of `INIT` that the others leave open, the tables under both values of
P5, the given parameters, and the obligations O14, O15, O17, O24, O54 and O55. -/

namespace Sys2Proof.Machine

/-! ### Refusals -/

theorem exec_init_refuses {s : State} (hw : s.written.arg = true) (harg : s.regs.arg = s.params.engineVersion)
    (hdone : s.ctx.initDone = false) (hlittle : s.params.hostLittleEndian = true) (hcat : catalogOk s.params = false) :
    exec .init s = .refused .invalidCatalog := by
  simp [exec, execInit, State.firstUnwritten_of_written (r := .arg) hw, harg, hdone, hlittle, hcat]

/-- The one refusal of a command (00 R12). -/
theorem exec_refused {i : Instr} {s : State} {r : Refusal} (h : exec i s = .refused r) :
    i = .init ∧ r = .invalidCatalog ∧ catalogOk s.params = false := by
  rcases instr_kind i with rfl | hb | hl
  · exact ⟨rfl, execInit_refused h⟩
  · obtain ⟨mayAlias, body, he⟩ := exec_of_isBuffer hb
    rw [he] at h
    exact absurd h (runBuffer_not_refused _ _ _ _ _ _)
  · rcases exec_of_isLookup hl s with ⟨v, he⟩ | he <;> rw [he] at h <;> cases h

/-! ### A second `INIT` -/

theorem State.complete_of_rc {s : State} {c : ReturnCode} (h : s.rc = rcValue c) : s.complete c = s := by
  rw [State.complete, State.setRc, ← h]

/-- `INIT` answers a next state only with `ARG` written (10 R32). -/
theorem written_arg_of_exec_init {s t : State} (h : exec .init s = .next t) : s.written.arg = true := by
  by_contra hw
  rw [exec_unwritten (State.firstUnwritten_singleton (r := .arg) (Bool.not_eq_true _ ▸ hw))] at h
  cases h

/-- `INIT` reports success only where `ARG` is the version (40 R101 (a)). -/
theorem arg_of_exec_init_ok {s t : State} (h : exec .init s = .next t) (hrc : t.rc = 0x00) :
    s.regs.arg = s.params.engineVersion := by
  rcases execInit_next h with ⟨-, rfl⟩ | ⟨harg, -⟩ | ⟨harg, -⟩ | ⟨harg, -⟩
  · rw [State.complete_rc] at hrc
    exact absurd hrc (by decide)
  all_goals exact harg

/-! ### The tables under both values of P5 -/

theorem pairAt_ext {t t' : Vector (Vector Byte 256) 256} (h : ∀ y x, pairAt t y x = pairAt t' y x) : t = t' := by
  refine Vector.ext fun y hy => Vector.ext fun x hx => ?_
  simpa [pairAt, byteIndex, hy, hx, Nat.mod_eq_of_lt] using h (BitVec.ofNat 8 y) (BitVec.ofNat 8 x)

theorem invAt_ext {t t' : Vector Byte 256} (h : ∀ x, invAt t x = invAt t' x) : t = t' := by
  refine Vector.ext fun x hx => ?_
  simpa [invAt, byteIndex, hx, Nat.mod_eq_of_lt] using h (BitVec.ofNat 8 x)

section
variable {p : Params} (hp : catalogOk p = true) (c : LogOfOne)
include hp

/-- The products do not depend on which logarithm of 1 they were made with. -/
theorem mul_logOfOne : (buildTables { p with logOfOne := c }).mul = (buildTables p).mul :=
  pairAt_ext fun y x => by rw [mulAt_built_eq_gfmul (p := { p with logOfOne := c }) hp, mulAt_built_eq_gfmul hp]; rfl

/-- Nor do the quotients: each is the one byte whose product with the divisor is the dividend. -/
theorem div_logOfOne : (buildTables { p with logOfOne := c }).div = (buildTables p).div := by
  refine pairAt_ext fun y x => ?_
  by_cases hy : y = 0
  · rw [divAt_built, divAt_built, if_pos (.inl hy), if_pos (.inl hy)]
  · exact (polyOf_fieldPoly hp).gfmul_injective hy
      ((gfmul_divAt_built (p := { p with logOfOne := c }) hp hy x).trans (gfmul_divAt_built hp hy x).symm)

theorem inv_logOfOne : (buildTables { p with logOfOne := c }).inv = (buildTables p).inv :=
  invAt_ext fun x => by rw [invAt_built, invAt_built, div_logOfOne hp]

end

theorem FieldContext.eq_with_log {c c' : FieldContext} (hdone : c'.initDone = c.initDone) (hpoly : c'.poly = c.poly)
    (hexp : c'.exp = c.exp) (hmul : c'.mul = c.mul) (hdiv : c'.div = c.div) (hinv : c'.inv = c.inv) :
    c' = { c with log := c'.log } := by
  rw [← hdone, ← hpoly, ← hexp, ← hmul, ← hdiv, ← hinv]

theorem logEntry_ne_one (poly : Poly) (one one' : LogOfOne) {x : Nat} (hx : x ≠ 1) :
    logEntry poly one x = logEntry poly one' x := by
  simp only [logEntry, if_neg hx]

/-! ### The obligations -/

/-- Settles O14: the build path with a bad catalog, and the one refusal of any command. -/
theorem onlyInitRefusesAndOnlyABadCatalog : Obligations.OnlyInitRefusesAndOnlyABadCatalog :=
  ⟨fun _ => exec_init_refuses, fun _ _ _ => exec_refused⟩

/-- Settles O15: the second `INIT` meets the same `ARG` and version, finds `INIT_DONE` = 1, and writes the `RC` that is there. -/
theorem initTwiceChangesNothing : Obligations.InitTwiceChangesNothing := by
  intro s t h hdone hrc
  obtain ⟨hregs, hwritten⟩ := exec_keeps_registers h
  have hw : t.written.arg = true := by rw [hwritten, written_arg_of_exec_init h]
  have harg : t.regs.arg = t.params.engineVersion := by rw [hregs, exec_params h, arg_of_exec_init_ok h hrc]
  rw [exec_init_again hw harg hdone, State.complete_of_rc hrc]

/-- Settles O24: the products and quotients are the reference multiplication's, which knows no logarithm. -/
theorem logOfOneShowsOnlyInLogOne : Obligations.LogOfOneShowsOnlyInLogOne := by
  intro p c hp
  refine ⟨FieldContext.eq_with_log rfl rfl rfl (mul_logOfOne hp c) (div_logOfOne hp c) (inv_logOfOne hp c), fun x hx => ?_,
    logAt_built_one _⟩
  rw [logAt_built, logAt_built]
  exact logEntry_ne_one _ _ _ fun h => hx (BitVec.eq_of_toNat_eq h)

/-- Settles O54: index 3 of the given catalog holds 0xA6. -/
theorem givenParametersSelect14D : Obligations.GivenParametersSelect14D :=
  BitVec.eq_of_toNat_eq (polyOf_toNat (p := Params.given) (selectIndex_inside 3))

/-- Settles O17, by computing the order of 2 for each of the 16 entries. -/
theorem defaultCatalogIsPrimitive : Obligations.DefaultCatalogIsPrimitive := by
  unfold Obligations.DefaultCatalogIsPrimitive
  decide +kernel

/-- Settles O55: the index fails the check of `execExprd`, whose other branch is an illegal word's. -/
theorem exprdTermBeyondExpSetsIllegalCommand : Obligations.ExprdTermBeyondExpSetsIllegalCommand :=
  fun _ _ hk => if_neg (not_lt.mpr hk)

end Sys2Proof.Machine
end
